-- ==== Sys2Proof/Word.lean ====
section
/-! DEFINITION. The machine word (00_scope.md R5) and the byte of a memory image (70_reset_and_hazards.md R232). -/

namespace Sys2Proof

/-- A signed 64-bit two's-complement word (R5). `BitVec.toInt` reads its value. -/
abbrev Word := BitVec 64

/-- One byte of a memory image (R232). No byte exists inside the core (20_memory.md R44, R45). -/
abbrev Byte := BitVec 8

/-- The range of a word, `i64` of R5 and R10. -/
abbrev InI64 (r : Int) : Prop := -2 ^ 63 ≤ r ∧ r < 2 ^ 63

end Sys2Proof
end

