-- ==== Sys2Proof/Config.lean ====
section
/-! DEFINITION. The parameters of the spec (00_scope.md R9) and the one value it leaves open. -/

namespace Sys2Proof

/-- `IO_MODE` (R7): the adapter's stream format, fixed at construction. -/
inductive IoMode where
  | char
  | decimal
  deriving DecidableEq, Repr

/-- `NEG_DECODE` (30_encoding.md R62): how a negative instruction word is decoded. -/
inductive NegDecode where
  | trunc
  | floor
  | fault
  deriving DecidableEq, Repr

/-- `OVERFLOW_POLICY` (41_alu.md R100): what ADD and MUL do with a result outside `i64`. -/
inductive OverflowPolicy where
  | wrap
  | fault
  deriving DecidableEq, Repr

/-- The parameters of one machine (R9). State holds them and no step changes them (log 1). -/
structure Config where
  /-- `CAPACITY` (R6): the number of memory cells. -/
  capacity : Nat
  /-- `EOF_SENTINEL` (R8): the word input delivers at end of stream in `CHAR` mode. -/
  eofSentinel : Word
  negDecode : NegDecode
  overflowPolicy : OverflowPolicy
  deriving DecidableEq, Repr

/-- The range R6 requires of `CAPACITY`: `1 <= CAPACITY <= 2^62`. -/
def Config.wf (c : Config) : Bool := decide (1 ≤ c.capacity ∧ c.capacity ≤ 2 ^ 62)

/-- R8, 92_eei_decisions.md D14: `EOF_SENTINEL` is OPEN. A free value with no body (log 5): no proof can
use which word it is. -/
opaque Config.openEofSentinel : Word

/-- The spec's defaults: `CAPACITY` 30000 (R6), `NEG_DECODE` TRUNC (R62), `OVERFLOW_POLICY` WRAP (R100)
(log 2, 3, 4); `EOF_SENTINEL` stays open. -/
def Config.default : Config :=
  { capacity := 30000
    eofSentinel := Config.openEofSentinel
    negDecode := .trunc
    overflowPolicy := .wrap }

end Sys2Proof
end

