-- ==== Sys2Proof/Machine/State.lean ====
section
/-! DEFINITION. The state of the core, its ports and its host (10_state.md), and the reasons a step has no
next state. All of it is plain data. -/

namespace Sys2Proof.Machine

/-- `run_state` (10_state.md R25). -/
inductive RunState where
  | loaded
  | running
  | haltedNormal
  | haltedOutOfBounds
  | haltedFault
  deriving DecidableEq, Repr

/-- `fault_cause` (R26; 60_exceptions.md R201-R204). -/
inductive FaultCause where
  | none
  | unknownAddressingMode
  | memoryFault
  | ioFault
  | negativeInstructionWord
  | arithmeticOverflow
  deriving DecidableEq, Repr

/-- `fault_kind` (R26): which step of the instruction faulted. -/
inductive FaultKind where
  | none
  | fetch
  | operandFetch
  | read
  | write
  | input
  | output
  | alu
  deriving DecidableEq, Repr

/-- What a `raise` says (00_scope.md R11): every field of the fault status but `fault_pc`. -/
structure FaultInfo where
  cause : FaultCause
  kind : FaultKind
  operand : Fin 4
  value : Word
  deriving DecidableEq, Repr

/-- The fault status (R26). -/
structure FaultStatus where
  cause : FaultCause
  kind : FaultKind
  operand : Fin 4
  value : Word
  pc : Word
  deriving DecidableEq, Repr

/-- The fault status of a core that has not faulted: the reset values of R26. -/
def FaultStatus.clear : FaultStatus := { cause := .none, kind := .none, operand := 0, value := 0, pc := 0 }

/-- A memory cell: its address and its word. The word is the smallest thing an address names
(20_memory.md R44; log 8). -/
abbrev Cell := Nat × Word

/-- The memory array `M` (R31), as the cells that do not read `Memory.unlisted`, by rising address. -/
abbrev Memory := List Cell

/-- What an address that is not listed reads as: "uninitialized slots read as zero-equivalent unless
written" (R31, 20_memory.md R43). -/
def Memory.unlisted : Word := 0

/-- What the adapter finds next in the input stream (42_io.md R121, R122; log 10). -/
inductive InputItem where
  /-- A character code (`CHAR`), or a decimal token with its value (`DECIMAL`). -/
  | datum (n : Int)
  /-- A token that is not a decimal integer. Only a `DECIMAL` stream has tokens. -/
  | malformed
  /-- The stream cannot be read. -/
  | unreadable
  deriving DecidableEq, Repr

/-- The input side of the adapter (log 10): the items that have arrived, oldest first, and whether the
stream ends after them. No item and no end: the adapter has not answered yet (R125). -/
structure InputPort where
  items : List InputItem
  ended : Bool
  deriving DecidableEq, Repr

/-- The two answers of the output port (R123). -/
inductive OutputAnswer where
  | ok
  | fault
  deriving DecidableEq, Repr

/-- The output side of the adapter (log 11): its next answers, oldest first, and whether it then answers
`Ok` to every request or to none (R123, R125). -/
structure OutputPort where
  answers : List OutputAnswer
  takesAll : Bool
  deriving DecidableEq, Repr

/-- The transactions of the host port that change state (00_scope.md R12, 70_reset_and_hazards.md R237). -/
inductive HostTransaction where
  /-- `Load(words)` (R230). -/
  | load (words : List Word)
  /-- `Start` (R234). -/
  | start
  deriving DecidableEq, Repr

/-- Everything the spec gives the machine, with its environment as data. -/
structure State where
  /-- The parameters (00_scope.md R9). No step writes them (log 1). -/
  config : Config
  /-- `io_mode` (R28): host status index 7. -/
  ioMode : IoMode
  /-- Program counter (R21): host status index 8. -/
  pc : Word
  /-- Relative base (R23): host status index 9. -/
  rb : Word
  /-- `run_state` (R25): host status index 0. -/
  runState : RunState
  /-- Fault status (R26): host status indices 1 to 5. -/
  fault : FaultStatus
  /-- `loaded_length` (R27): host status index 6. -/
  loadedLength : Nat
  /-- Memory array (R31). -/
  mem : Memory
  /-- The input side of the adapter (42_io.md R122). -/
  input : InputPort
  /-- The words input has delivered, oldest first (R124). -/
  consumed : List Word
  /-- The output side of the adapter (R123). -/
  outPort : OutputPort
  /-- The words output has taken, oldest first (R124). -/
  output : List Word
  /-- The host's pending transactions, oldest first (log 12). -/
  host : List HostTransaction
  deriving DecidableEq, Repr

/-- The reset state (10_state.md section 4; 70_reset_and_hazards.md R231) of a core that no image has been
loaded into: the state `Load` of an empty image leaves (log 7). The spec gives no value for `ioMode`
(log 6), the ports (log 10, 11, 13) and the host's transactions (log 12). -/
def State.reset : State :=
  { config := Config.default
    ioMode := .decimal
    pc := 0
    rb := 0
    runState := .loaded
    fault := FaultStatus.clear
    loadedLength := 0
    mem := []
    input := { items := [], ended := true }
    consumed := []
    outPort := { answers := [], takesAll := true }
    output := []
    host := [] }

/-- Why `step` has no next state: the spec gives the core no step there (log 9). A fault of the spec's own
(60_exceptions.md) is no constructor here: the core takes it and goes to `HaltedFault`, a next state. -/
inductive Fault where
  /-- Raised by IN when the input port has not answered: "the core has no enabled step" (42_io.md R125).
  Safe: nothing is claimed of what happens next. -/
  | inputWait
  /-- Raised by OUT when the output port has not answered (R125). Safe, as `inputWait`. -/
  | outputWait
  /-- Raised by `step` in `Loaded` with no host transaction pending: only `Start` moves it (46_dispatch.md
  R170). Safe. -/
  | notStarted
  /-- Raised by `step` in a terminal state with no host transaction pending: "In a terminal state the core
  has no step" (R176). Safe. -/
  | runEnded
  deriving DecidableEq, Repr

/-- Why the model has no meaning for an instruction. -/
inductive Refusal where
  /-- Raised only by an arm of `exec` for a row that has no meaning yet. No arm raises it. Safe. -/
  | notModelled (mnemonic : String)
  deriving DecidableEq, Repr

end Sys2Proof.Machine
end

