-- ==== Sys2Proof/Machine/Flags.lean ====
section
/-! DEFINITION. The core has no flags or condition codes (10_state.md R30). What other machines keep in
flags is here: the overflow check of ADD and MUL (41_alu.md R100) and the 0 or 1 of a comparison (R106, R108). -/

namespace Sys2Proof.Machine

/-- `wrap64(r)` (00_scope.md R10). -/
def wrap64 (r : Int) : Word := BitVec.ofInt 64 r

/-- `ArithmeticOverflow()` (60_exceptions.md R204). -/
def arithmeticOverflow : FaultInfo := { cause := .arithmeticOverflow, kind := .alu, operand := 0, value := 0 }

/-- The word stored for an exact result `r` (R100): `r` in `i64` is kept, outside `i64` it wraps or faults. -/
def narrow (policy : OverflowPolicy) (r : Int) : Except FaultInfo Word :=
  if InI64 r then .ok (wrap64 r)
  else
    match policy with
    | .wrap => .ok (wrap64 r)
    | .fault => .error arithmeticOverflow

/-- The result of a comparison: 1 or 0 (R30, R106, R108). -/
def truth (p : Prop) [Decidable p] : Word := if p then 1 else 0

end Sys2Proof.Machine
end

