-- ==== Sys2Proof/Machine/Ops.lean ====
section
/-! DEFINITION. The named operations over memory and registers: the memory interface (20_memory.md),
advancing `pc`, and taking a fault (60_exceptions.md R205). -/

namespace Sys2Proof.Machine

/-- The word at address `a`, without a bounds check: `M[a]` (00_scope.md R11). -/
def Memory.get : Memory → Nat → Word
  | [], _ => Memory.unlisted
  | (b, u) :: m, a => if b = a then u else Memory.get m a

/-- Puts the cell `(a, v)` in front of cells that lie above it, unless an unlisted address reads `v`. -/
def Memory.cons (a : Nat) (v : Word) (m : Memory) : Memory := if v = Memory.unlisted then m else (a, v) :: m

/-- `M[a] <- v` (R11), without a bounds check, keeping the canonical form. -/
def Memory.set : Memory → Nat → Word → Memory
  | [], a, v => Memory.cons a v []
  | (b, u) :: m, a, v =>
    if a < b then Memory.cons a v ((b, u) :: m)
    else if a = b then Memory.cons a v m
    else (b, u) :: Memory.set m a v

/-- The cells of an image whose first word stands at address `a`; every other cell reads 0 (R230). -/
def Memory.ofWords (a : Nat) : List Word → Memory
  | [] => []
  | v :: ws => Memory.cons a v (Memory.ofWords (a + 1) ws)

/-- Every listed address is at least `lo`, addresses rise strictly, and no cell reads as an unlisted one. -/
def Memory.wfFrom (lo : Nat) : Memory → Bool
  | [] => true
  | (a, v) :: m => decide (lo ≤ a) && decide (v ≠ Memory.unlisted) && Memory.wfFrom (a + 1) m

/-- The canonical form: equal memories are equal lists. -/
def Memory.wf (m : Memory) : Bool := Memory.wfFrom 0 m

/-- Every listed address is a cell of a memory of `capacity` cells (10_state.md R31). -/
def Memory.within (capacity : Nat) : Memory → Bool
  | [] => true
  | (a, _) :: m => decide (a < capacity) && Memory.within capacity m

/-- The bounds check of R41 and R42: `0 <= a and a < CAPACITY`, with `a` a signed integer. -/
abbrev InBounds (capacity : Nat) (a : Word) : Prop := 0 ≤ a.toInt ∧ a.toInt < capacity

/-- The cell a word addresses, once it is in bounds. -/
def cellOf (a : Word) : Nat := a.toInt.toNat

/-- `MemoryFault(address = a)`, with where it arose (60_exceptions.md R202). -/
def memoryFault (kind : FaultKind) (operand : Fin 4) (a : Word) : FaultInfo :=
  { cause := .memoryFault, kind := kind, operand := operand, value := a }

/-- `MemRead(a, 1)` (20_memory.md R41), made for the step `kind` of operand `operand`. -/
def memRead (s : State) (kind : FaultKind) (operand : Fin 4) (a : Word) : Except FaultInfo Word :=
  if InBounds s.config.capacity a then .ok (s.mem.get (cellOf a)) else .error (memoryFault kind operand a)

/-- `MemWrite(a, 1, v)` (R42), the result write of destination operand `operand`: the new memory. -/
def memWrite (s : State) (operand : Fin 4) (a v : Word) : Except FaultInfo Memory :=
  if InBounds s.config.capacity a then .ok (s.mem.set (cellOf a) v) else .error (memoryFault .write operand a)

/-- `pc <- pc + n`: the per-instruction advance (10_state.md R21). -/
def State.advance (s : State) (n : Nat) : State := { s with pc := s.pc + BitVec.ofNat 64 n }

/-- `pc <- t`: a jump (R21, 43_jumps.md R142). -/
def State.jump (s : State) (t : Word) : State := { s with pc := t }

/-- `rb <- v` (R23). -/
def State.setRb (s : State) (v : Word) : State := { s with rb := v }

/-- The memory after a result write. -/
def State.setMem (s : State) (m : Memory) : State := { s with mem := m }

/-- `halt S` (46_dispatch.md R176). -/
def State.halt (s : State) (r : RunState) : State := { s with runState := r }

/-- Fault entry (60_exceptions.md R205): `HaltedFault`, the status recorded with the `pc` of the faulting
instruction; `pc`, `rb` and `M` as they were. There is no return from it (R208). -/
def State.enterFault (s : State) (e : FaultInfo) : State :=
  { s with
    runState := .haltedFault
    fault := { cause := e.cause, kind := e.kind, operand := e.operand, value := e.value, pc := s.pc } }

/-- The outcomes of a step of this machine. -/
abbrev Result := Host.Outcome State Fault Refusal

/-- Ends an instruction that makes no port transaction: its last state, or the fault it raised, taken from
the state before the instruction (R205). -/
def finish (s : State) (r : Except FaultInfo State) : Result :=
  match r with
  | .ok t => .next t
  | .error e => .next (s.enterFault e)

end Sys2Proof.Machine
end

