-- ==== Sys2Proof/Syntax.lean ====
section
/-! DEFINITION. The instructions of spec/opcode_table.json, one constructor a row (30_encoding.md R71). -/

namespace Sys2Proof

/-- An addressing-mode digit (R66). Digits 3..9 are the unknown modes: a read operand with one faults
(R67), a destination with one is relative (R68). -/
inductive Mode where
  | position
  | immediate
  | relative
  | unknown (digit : Nat)
  deriving DecidableEq, Repr

/-- A decoded instruction word: the opcode and the mode digits of its own operands (R65). Operand words
are no part of it: the core fetches them one at a time while it executes (R73, 20_memory.md R54; log 15). -/
inductive Instr where
  /-- op 1: `dest = a + b` (41_alu.md R102). -/
  | add (m1 m2 m3 : Mode)
  /-- op 2: `dest = a * b` (R104). -/
  | mul (m1 m2 m3 : Mode)
  /-- op 3, IN: `dest = next_input()` (42_io.md R126). -/
  | inp (m1 : Mode)
  /-- op 4, OUT: `emit_output(a)` (R127). -/
  | out (m1 : Mode)
  /-- op 5, jump-if-true (43_jumps.md R140). -/
  | jit (m1 m2 : Mode)
  /-- op 6, jump-if-false (R141). -/
  | jif (m1 m2 : Mode)
  /-- op 7, less-than (R106). -/
  | lt (m1 m2 m3 : Mode)
  /-- op 8, equals (R108). -/
  | eq (m1 m2 m3 : Mode)
  /-- op 9, adjust-relative-base (44_relative_base.md R150). -/
  | arb (m1 : Mode)
  /-- op 99 (45_halt_and_unrecognized.md R160). -/
  | halt
  /-- Every other opcode value, a one-word no-op (R161, R72). -/
  | unrecognized (op : Int)
  deriving DecidableEq, Repr

end Sys2Proof
end

