-- ==== Sys2Proof/Machine/Operands.lean ====
section
/-! DEFINITION. The addressing-mode resolver (30_encoding.md R66-R70) and the operand-word fetches
(20_memory.md R54). -/

namespace Sys2Proof.Machine

/-- The address of operand word `i`: `pc + i` (R64). -/
def operandAddress (s : State) (i : Fin 4) : Word := s.pc + BitVec.ofNat 64 i.val

/-- `raw_i <- MemRead(pc + i, 1)` (R54 step 2). -/
def fetchOperand (s : State) (i : Fin 4) : Except FaultInfo Word :=
  memRead s .operandFetch i (operandAddress s i)

/-- The relative-mode address `wrap64(rb + raw)` (R69). -/
def relativeAddress (s : State) (raw : Word) : Word := s.rb + raw

/-- `UnknownAddressingMode(mode)` on operand `i` (60_exceptions.md R201). -/
def unknownMode (i : Fin 4) (digit : Nat) : FaultInfo :=
  { cause := .unknownAddressingMode, kind := .read, operand := i, value := BitVec.ofNat 64 digit }

/-- `ReadOperand(mode, raw)` (R67) for operand `i`. -/
def readOperand (s : State) (i : Fin 4) (mode : Mode) (raw : Word) : Except FaultInfo Word :=
  match mode with
  | .position => memRead s .read i raw
  | .immediate => .ok raw
  | .relative => memRead s .read i (relativeAddress s raw)
  | .unknown digit => .error (unknownMode i digit)

/-- `WriteAddress(mode, raw)` (R68): every non-zero mode digit is relative, and none faults. -/
def writeAddress (s : State) (mode : Mode) (raw : Word) : Word :=
  match mode with
  | .position => raw
  | .immediate | .relative | .unknown _ => relativeAddress s raw

/-- A read operand: its word is fetched, then resolved (R54 step 2). -/
def source (s : State) (i : Fin 4) (mode : Mode) : Except FaultInfo Word :=
  match fetchOperand s i with
  | .ok raw => readOperand s i mode raw
  | .error e => .error e

/-- A destination operand: its word is fetched, then its address computed, with no access (R54 step 2). -/
def destination (s : State) (i : Fin 4) (mode : Mode) : Except FaultInfo Word :=
  match fetchOperand s i with
  | .ok raw => .ok (writeAddress s mode raw)
  | .error e => .error e

/-- Operands 1 and 2, both read, operand 1 whole before operand 2 (R54, 60_exceptions.md R206). -/
def twoSources (s : State) (m1 m2 : Mode) : Except FaultInfo (Word × Word) :=
  match source s 1 m1 with
  | .error e => .error e
  | .ok a =>
    match source s 2 m2 with
    | .error e => .error e
    | .ok b => .ok (a, b)

end Sys2Proof.Machine
end

