-- ==== Sys2Proof/Machine/Alu.lean ====
section
/-! DEFINITION. ADD, MUL, LT and EQ (41_alu.md). -/

namespace Sys2Proof.Machine

/-- `exec_F3(f)` (R101): two reads, the destination, the ALU function, one write, `pc + 4`. -/
def resultF3 (f : Word → Word → Except FaultInfo Word) (m1 m2 m3 : Mode) (s : State) : Except FaultInfo State :=
  match twoSources s m1 m2 with
  | .error e => .error e
  | .ok (a, b) =>
    match destination s 3 m3 with
    | .error e => .error e
    | .ok dest =>
      match f a b with
      | .error e => .error e
      | .ok v =>
        match memWrite s 3 dest v with
        | .error e => .error e
        | .ok m => .ok ((s.setMem m).advance 4)

/-- `add(a, b) = a + b` under R100 (R102). -/
def aluAdd (policy : OverflowPolicy) (a b : Word) : Except FaultInfo Word := narrow policy (a.toInt + b.toInt)

/-- `mul(a, b) = a * b` under R100 (R104). -/
def aluMul (policy : OverflowPolicy) (a b : Word) : Except FaultInfo Word := narrow policy (a.toInt * b.toInt)

/-- `lt(a, b) = if a < b then 1 else 0`, signed (R106, R107). -/
def aluLt (a b : Word) : Word := truth (a.toInt < b.toInt)

/-- `eq(a, b) = if a == b then 1 else 0` (R108). -/
def aluEq (a b : Word) : Word := truth (a = b)

/-- ADD (R102). -/
def execAdd (m1 m2 m3 : Mode) (s : State) : Result :=
  finish s (resultF3 (aluAdd s.config.overflowPolicy) m1 m2 m3 s)

/-- MUL (R104). -/
def execMul (m1 m2 m3 : Mode) (s : State) : Result :=
  finish s (resultF3 (aluMul s.config.overflowPolicy) m1 m2 m3 s)

/-- LT (R106). -/
def execLt (m1 m2 m3 : Mode) (s : State) : Result :=
  finish s (resultF3 (fun a b => .ok (aluLt a b)) m1 m2 m3 s)

/-- EQ (R108). -/
def execEq (m1 m2 m3 : Mode) (s : State) : Result :=
  finish s (resultF3 (fun a b => .ok (aluEq a b)) m1 m2 m3 s)

end Sys2Proof.Machine
end

