-- ==== Sys2Proof/Machine/Halt.lean ====
section
/-! DEFINITION. HALT and the unrecognized-opcode no-op (45_halt_and_unrecognized.md). -/

namespace Sys2Proof.Machine

/-- HALT (R160): `HaltedNormal`; `pc`, `rb` and `M` unchanged. -/
def execHalt (s : State) : Result := .next (s.halt .haltedNormal)

/-- Every unrecognized opcode (R161): `pc <- pc + 1`. -/
def execUnrecognized (s : State) : Result := .next (s.advance 1)

end Sys2Proof.Machine
end

