-- ==== Sys2Proof/Machine/Ports.lean ====
section
/-! DEFINITION. The core's side of the input and output ports, and what the adapter answers (42_io.md
R120-R125). -/

namespace Sys2Proof.Machine

/-- The two answers of the input port (R122). -/
inductive InputAnswer where
  | value (v : Word)
  | fault
  deriving DecidableEq, Repr

/-- What the adapter answers for an item of the stream (R121, R122): the character code, or the value of a
token that lies in `i64`; a `Fault` for anything it cannot deliver. -/
def InputItem.answer : InputItem → InputAnswer
  | .datum n => if InI64 n then .value (BitVec.ofInt 64 n) else .fault
  | .malformed => .fault
  | .unreadable => .fault

/-- What the adapter answers at end of stream: `EOF_SENTINEL` in `CHAR` mode (R121), `Fault` in `DECIMAL`
mode (R122). -/
def endOfStreamAnswer (mode : IoMode) (eofSentinel : Word) : InputAnswer :=
  match mode with
  | .char => .value eofSentinel
  | .decimal => .fault

/-- `InputPort()` (R122): the answer and the port after it, or nothing while the port has not answered
(R125). -/
def InputPort.request (p : InputPort) (mode : IoMode) (eofSentinel : Word) : Option (InputAnswer × InputPort) :=
  match p.items with
  | item :: rest => some (item.answer, { p with items := rest })
  | [] => if p.ended then some (endOfStreamAnswer mode eofSentinel, p) else none

/-- `OutputPort(v)` (R123): the answer and the port after it, or nothing while the port has not answered
(R125). -/
def OutputPort.request (p : OutputPort) : Option (OutputAnswer × OutputPort) :=
  match p.answers with
  | answer :: rest => some (answer, { p with answers := rest })
  | [] => if p.takesAll then some (.ok, p) else none

/-- Whether a stream of the mode can hold the item (log 10): a `CHAR` stream holds character codes, which
are words (R121, R122), and no tokens. -/
def InputItem.fits (mode : IoMode) : InputItem → Bool
  | .datum n =>
    match mode with
    | .char => decide (InI64 n)
    | .decimal => true
  | .malformed =>
    match mode with
    | .char => false
    | .decimal => true
  | .unreadable => true

/-- `IoFault` (60_exceptions.md R203). -/
def ioFault (kind : FaultKind) : FaultInfo := { cause := .ioFault, kind := kind, operand := 0, value := 0 }

/-- The input port after an answer. -/
def State.setInput (s : State) (p : InputPort) : State := { s with input := p }

/-- The consumed input after a `Value` answer (R124). -/
def State.consume (s : State) (v : Word) : State := { s with consumed := s.consumed ++ [v] }

/-- The output port after an answer. -/
def State.setOutPort (s : State) (p : OutputPort) : State := { s with outPort := p }

/-- The output sequence after an item is taken (R124). -/
def State.emit (s : State) (v : Word) : State := { s with output := s.output ++ [v] }

end Sys2Proof.Machine
end

