-- ==== Sys2Proof/Machine/Io.lean ====
section
/-! DEFINITION. IN and OUT (42_io.md). -/

namespace Sys2Proof.Machine

/-- The last part of IN, once the port has delivered `v` (R126): the item is consumed, then written. -/
def storeInput (dest v : Word) (s : State) : Result :=
  match memWrite (s.consume v) 1 dest v with
  | .error e => .next ((s.consume v).enterFault e)
  | .ok m => .next (((s.consume v).setMem m).advance 2)

/-- IN (R126). -/
def execIn (m1 : Mode) (s : State) : Result :=
  match destination s 1 m1 with
  | .error e => .next (s.enterFault e)
  | .ok dest =>
    match s.input.request s.ioMode s.config.eofSentinel with
    | none => .fault .inputWait
    | some (.fault, p) => .next ((s.setInput p).enterFault (ioFault .input))
    | some (.value v, p) => storeInput dest v (s.setInput p)

/-- OUT (R127). -/
def execOut (m1 : Mode) (s : State) : Result :=
  match source s 1 m1 with
  | .error e => .next (s.enterFault e)
  | .ok a =>
    match s.outPort.request with
    | none => .fault .outputWait
    | some (.fault, p) => .next ((s.setOutPort p).enterFault (ioFault .output))
    | some (.ok, p) => .next (((s.setOutPort p).emit a).advance 2)

end Sys2Proof.Machine
end

