-- ==== Sys2Proof/Machine/Jumps.lean ====
section
/-! DEFINITION. JIT and JIF (43_jumps.md). -/

namespace Sys2Proof.Machine

/-- The shape of both jumps: both operands are resolved, taken or not (R140, R141); the target is the word
itself (R142). -/
def resultJump (taken : Word → Bool) (m1 m2 : Mode) (s : State) : Except FaultInfo State :=
  match twoSources s m1 m2 with
  | .error e => .error e
  | .ok (a, b) => .ok (if taken a then s.jump b else s.advance 3)

/-- JIT (R140): jumps if `a != 0`. -/
def execJit (m1 m2 : Mode) (s : State) : Result := finish s (resultJump (fun a => decide (a ≠ 0)) m1 m2 s)

/-- JIF (R141): jumps if `a == 0`. -/
def execJif (m1 m2 : Mode) (s : State) : Result := finish s (resultJump (fun a => decide (a = 0)) m1 m2 s)

end Sys2Proof.Machine
end

