-- ==== Sys2Proof/Machine/RelativeBase.lean ====
section
/-! DEFINITION. ARB (44_relative_base.md). -/

namespace Sys2Proof.Machine

/-- ARB (R150): `rb <- wrap64(rb + a)`, the operand read with the old `rb`. -/
def resultArb (m1 : Mode) (s : State) : Except FaultInfo State :=
  match source s 1 m1 with
  | .error e => .error e
  | .ok a => .ok ((s.setRb (s.rb + a)).advance 2)

/-- ARB (R150). -/
def execArb (m1 : Mode) (s : State) : Result := finish s (resultArb m1 s)

end Sys2Proof.Machine
end

