-- ==== Sys2Proof/WellFormed.lean ====
section
/-! DEFINITION. Which terms of `Instr` are instructions an instruction word can hold. -/

namespace Sys2Proof

/-- The ten opcode values of the opcode map (30_encoding.md R71). -/
def recognizedOp (op : Int) : Bool := decide ((1 ≤ op ∧ op ≤ 9) ∨ op = 99)

/-- A mode digit is one decimal digit; 0, 1 and 2 have names of their own, so an unknown one is 3..9 (R66). -/
def Mode.wf : Mode → Bool
  | .position | .immediate | .relative => true
  | .unknown d => decide (3 ≤ d ∧ d ≤ 9)

/-- Every mode is a digit; an unrecognized opcode is a remainder by 100 outside the map (R62, R72). -/
def Instr.wf : Instr → Bool
  | .add m1 m2 m3 => m1.wf && m2.wf && m3.wf
  | .mul m1 m2 m3 => m1.wf && m2.wf && m3.wf
  | .inp m1 => m1.wf
  | .out m1 => m1.wf
  | .jit m1 m2 => m1.wf && m2.wf
  | .jif m1 m2 => m1.wf && m2.wf
  | .lt m1 m2 m3 => m1.wf && m2.wf && m3.wf
  | .eq m1 m2 m3 => m1.wf && m2.wf && m3.wf
  | .arb m1 => m1.wf
  | .halt => true
  | .unrecognized op => decide (-99 ≤ op ∧ op ≤ 99) && !recognizedOp op

abbrev Instr.WellFormed (i : Instr) : Prop := i.wf = true

end Sys2Proof
end

