-- ==== Sys2Proof/Decode.lean ====
section
/-! DEFINITION. The decimal decoder of instruction words (30_encoding.md R60-R66, R71, R72) and its encoder
(R75). -/

namespace Sys2Proof

/-- Why a word has no decoding: `NegativeInstructionWord` (60_exceptions.md R204). -/
inductive DecodeError where
  | negativeInstructionWord
  deriving DecidableEq, Repr

/-- The opcode field: `rem(w, 100)` (R61), the floored form under `FLOOR` (R62). They differ only for a
negative `w`. -/
def opField (nd : NegDecode) (n : Int) : Int :=
  match nd with
  | .floor => n.fmod 100
  | .trunc | .fault => n.tmod 100

/-- `digit(w, k) = rem(quot(w, 10^k), 10)` (00_scope.md R10), the floored form under `FLOOR` (R62). -/
def digitField (nd : NegDecode) (n : Int) (k : Nat) : Int :=
  match nd with
  | .floor => (n.fdiv (10 ^ k)).fmod 10
  | .trunc | .fault => (n.tdiv (10 ^ k)).tmod 10

/-- The addressing mode a digit names (R66). -/
def modeOfDigit (d : Int) : Mode :=
  if d = 0 then .position
  else if d = 1 then .immediate
  else if d = 2 then .relative
  else .unknown d.natAbs

/-- The mode field of operand `i`: digit `i + 1` (R63). -/
def modeField (nd : NegDecode) (n : Int) (i : Nat) : Mode := modeOfDigit (digitField nd n (i + 1))

/-- The row of the opcode map that `op` selects (R71), with the mode digits of its own operands (R65). -/
def instrOfFields (op : Int) (m1 m2 m3 : Mode) : Instr :=
  if op = 1 then .add m1 m2 m3
  else if op = 2 then .mul m1 m2 m3
  else if op = 3 then .inp m1
  else if op = 4 then .out m1
  else if op = 5 then .jit m1 m2
  else if op = 6 then .jif m1 m2
  else if op = 7 then .lt m1 m2 m3
  else if op = 8 then .eq m1 m2 m3
  else if op = 9 then .arb m1
  else if op = 99 then .halt
  else .unrecognized op

/-- Decoding an instruction word (46_dispatch.md R173): total, refused only for a negative word under
`NEG_DECODE = FAULT` (R62, R72). -/
def decode (nd : NegDecode) (w : Word) : Except DecodeError Instr :=
  if nd = .fault ∧ w.toInt < 0 then .error .negativeInstructionWord
  else
    .ok (instrOfFields (opField nd w.toInt) (modeField nd w.toInt 1) (modeField nd w.toInt 2)
      (modeField nd w.toInt 3))

/-- The opcode value of an instruction (R71). -/
def Instr.opcode : Instr → Int
  | .add _ _ _ => 1
  | .mul _ _ _ => 2
  | .inp _ => 3
  | .out _ => 4
  | .jit _ _ => 5
  | .jif _ _ => 6
  | .lt _ _ _ => 7
  | .eq _ _ _ => 8
  | .arb _ => 9
  | .halt => 99
  | .unrecognized op => op

/-- The length in words, operand words included, which the opcode alone selects (R64). -/
def Instr.length : Instr → Nat
  | .add _ _ _ | .mul _ _ _ | .lt _ _ _ | .eq _ _ _ => 4
  | .jit _ _ | .jif _ _ => 3
  | .inp _ | .out _ | .arb _ => 2
  | .halt | .unrecognized _ => 1

/-- The longest instruction, in words (R64). -/
def maxInstrWords : Nat := 4

/-- The digit of a mode (R66). -/
def Mode.digit : Mode → Int
  | .position => 0
  | .immediate => 1
  | .relative => 2
  | .unknown d => d

/-- `op + 100*mode1 + 1000*mode2 + 10000*mode3` (R75), an absent operand's digit 0. -/
def Instr.encodeValue : Instr → Int
  | .add m1 m2 m3 => 1 + 100 * m1.digit + 1000 * m2.digit + 10000 * m3.digit
  | .mul m1 m2 m3 => 2 + 100 * m1.digit + 1000 * m2.digit + 10000 * m3.digit
  | .inp m1 => 3 + 100 * m1.digit
  | .out m1 => 4 + 100 * m1.digit
  | .jit m1 m2 => 5 + 100 * m1.digit + 1000 * m2.digit
  | .jif m1 m2 => 6 + 100 * m1.digit + 1000 * m2.digit
  | .lt m1 m2 m3 => 7 + 100 * m1.digit + 1000 * m2.digit + 10000 * m3.digit
  | .eq m1 m2 m3 => 8 + 100 * m1.digit + 1000 * m2.digit + 10000 * m3.digit
  | .arb m1 => 9 + 100 * m1.digit
  | .halt => 99
  | .unrecognized op => op

/-- The instruction word of an instruction (R60, R75). -/
def encode (i : Instr) : Word := BitVec.ofInt 64 i.encodeValue

/-- Word `k` of an instruction whose bits are `w`, of which the table gives `nbits`; every bit above is
0. The first 64 bits are the instruction word, the next 64 the word at `pc + 1`, and so on (R44; log 17). -/
def tableWord (nbits w k : Nat) : Word := BitVec.ofNat 64 ((w % 2 ^ nbits) >>> (64 * k))

/-- The decoder, with the spec's default `NEG_DECODE`, on an instruction laid out as words (log 17). -/
def decodeTableWord (nbits w : Nat) : Option Instr :=
  match decode Config.default.negDecode (tableWord nbits w 0) with
  | .ok i => some i
  | .error _ => none

end Sys2Proof
end

