-- ==== Sys2Proof/Machine/Fetch.lean ====
section
/-! DEFINITION. The fetch limit, the instruction fetch and its decoding (46_dispatch.md R171-R173), and
placing an instruction where the next step fetches it. -/

namespace Sys2Proof.Machine

/-- The fetch limit `pc >= loaded_length`, compared as integers (R171). -/
def State.atFetchLimit (s : State) : Bool := decide ((s.loadedLength : Int) ≤ s.pc.toInt)

/-- `NegativeInstructionWord` (60_exceptions.md R204). -/
def negativeInstructionWord (w : Word) : FaultInfo :=
  { cause := .negativeInstructionWord, kind := .fetch, operand := 0, value := w }

/-- The fetch of the instruction word (R172) and its decoding (R173). -/
def fetchInstruction (s : State) : Except FaultInfo Instr :=
  match memRead s .fetch 0 s.pc with
  | .error e => .error e
  | .ok w =>
    match decode s.config.negDecode w with
    | .ok i => .ok i
    | .error .negativeInstructionWord => .error (negativeInstructionWord w)

/-- The address of the next instruction: `pc`, or 0 when `pc` is no cell (a fetch there faults, R172). -/
def fetchPlace (s : State) : Word := if InBounds s.config.capacity s.pc then s.pc else 0

/-- Words `k`, `k + 1`, … of an instruction (`n` of them), put at `a`, `a + 1`, … as far as memory goes. -/
def Memory.placeWords (capacity nbits w : Nat) : Nat → Nat → Nat → Memory → Memory
  | 0, _, _, m => m
  | n + 1, k, a, m =>
    Memory.placeWords capacity nbits w n (k + 1) (a + 1)
      (if a < capacity then m.set a (tableWord nbits w k) else m)

/-- The state whose very next step runs the instruction with bits `w` (log 7, 17): its words at `pc` (at 0
when `pc` is no cell), `loaded_length` above them, the core started. -/
def placeInstruction (s : State) (nbits w : Nat) : State :=
  { s with
    pc := fetchPlace s
    runState := .running
    loadedLength := max s.loadedLength (min s.config.capacity (cellOf (fetchPlace s) + maxInstrWords))
    mem := Memory.placeWords s.config.capacity nbits w maxInstrWords 0 (cellOf (fetchPlace s)) s.mem }

end Sys2Proof.Machine
end

