-- ==== Sys2Proof/Machine/HostPort.lean ====
section
/-! DEFINITION. The host port (70_reset_and_hazards.md): `Load`, `Start`, read-back, and the memory-image
format. -/

namespace Sys2Proof.Machine

/-- The little-endian value of bytes: the sum over `j` of byte `j` times `256^j` (R232), summed from the most
significant byte. -/
def littleEndian : List Byte → Nat
  | [] => 0
  | b :: bs => b.toNat + 256 * littleEndian bs

/-- `u_k`: the unsigned value of bytes `8k .. 8k + 7` (R232). -/
def imageValue (bytes : List Byte) (k : Nat) : Nat :=
  littleEndian ((List.range 8).map fun j => bytes.getD (8 * k + j) 0)

/-- The words of a memory image: `floor(L / 8)` of them, word `k` the two's-complement reading of `u_k`; a
trailing run of fewer than 8 bytes is dropped (R232). -/
def imageWords (bytes : List Byte) : List Word :=
  (List.range (bytes.length / 8)).map fun k => BitVec.ofNat 64 (imageValue bytes k)

/-- The effect of an accepted `Load(words)` (R230): the whole reset. `IO_MODE` (R231) and the parameters
stay, and so do the ports and their histories (log 13). -/
def State.load (s : State) (words : List Word) : State :=
  { s with
    mem := Memory.ofWords 0 words
    loadedLength := words.length
    pc := 0
    rb := 0
    fault := FaultStatus.clear
    runState := .loaded }

/-- `Load` is accepted when the core is not running and the image fits (R230); otherwise it is refused and
the core stays as it was (R235). -/
def State.acceptLoad (s : State) (words : List Word) : State :=
  if s.runState ≠ .running ∧ words.length ≤ s.config.capacity then s.load words else s

/-- `Start` is accepted only in `Loaded`, and changes `run_state` alone (R234, 46_dispatch.md R170);
elsewhere it does nothing (log 12). -/
def State.acceptStart (s : State) : State :=
  if s.runState = .loaded then { s with runState := .running } else s

/-- One host transaction. -/
def State.serve (s : State) : HostTransaction → State
  | .load words => s.acceptLoad words
  | .start => s.acceptStart

/-- Takes the host's next transaction from the pending ones. -/
def State.dropHost (s : State) : State := { s with host := s.host.tail }

/-- Why a core that is not running has no step (log 9). -/
def idleReason (s : State) : Fault := if s.runState = .loaded then .notStarted else .runEnded

/-- A step while the core is not running: the host's next transaction, or no step (R170, R176; log 12). -/
def hostStep (s : State) : Result :=
  match s.host with
  | [] => .fault (idleReason s)
  | t :: _ => .next (s.dropHost.serve t)

/-- The encodings of `run_state` (10_state.md R25). -/
def RunState.code : RunState → Nat
  | .loaded => 0
  | .running => 1
  | .haltedNormal => 2
  | .haltedOutOfBounds => 3
  | .haltedFault => 4

/-- The encodings of `fault_cause` (R26). -/
def FaultCause.code : FaultCause → Nat
  | .none => 0
  | .unknownAddressingMode => 1
  | .memoryFault => 2
  | .ioFault => 3
  | .negativeInstructionWord => 4
  | .arithmeticOverflow => 5

/-- The encodings of `fault_kind` (R26). -/
def FaultKind.code : FaultKind → Nat
  | .none => 0
  | .fetch => 1
  | .operandFetch => 2
  | .read => 3
  | .write => 4
  | .input => 5
  | .output => 6
  | .alu => 7

/-- The encodings of `io_mode` (R28). -/
def ioModeCode : IoMode → Nat
  | .char => 0
  | .decimal => 1

/-- The register behind a host status index (R25-R28, R236). -/
def statusRegister (s : State) (index : Nat) : Option Word :=
  match index with
  | 0 => some (BitVec.ofNat 64 s.runState.code)
  | 1 => some (BitVec.ofNat 64 s.fault.cause.code)
  | 2 => some (BitVec.ofNat 64 s.fault.kind.code)
  | 3 => some (BitVec.ofNat 64 s.fault.operand.val)
  | 4 => some s.fault.value
  | 5 => some s.fault.pc
  | 6 => some (BitVec.ofNat 64 s.loadedLength)
  | 7 => some (BitVec.ofNat 64 (ioModeCode s.ioMode))
  | 8 => some s.pc
  | 9 => some s.rb
  | _ => none

/-- The host reads a status index, which it may do only while the core is not running (R236). -/
def readStatus (s : State) (index : Nat) : Option Word :=
  if s.runState = .running then none else statusRegister s index

/-- The host reads a memory cell, only while the core is not running (R236). -/
def readCell (s : State) (a : Nat) : Option Word :=
  if s.runState ≠ .running ∧ a < s.config.capacity then some (s.mem.get a) else none

end Sys2Proof.Machine
end

