-- ==== Sys2Proof/Machine/Step.lean ====
section
/-! DEFINITION. One step: a whole instruction, or one transition of `run_state` (46_dispatch.md). -/

namespace Sys2Proof.Machine

/-- A step while `run_state` is `Running` (R174): the fetch limit, the fetch, the instruction. -/
def coreStep (s : State) : Host.Outcome State Fault Refusal :=
  if s.atFetchLimit then .next (s.halt .haltedOutOfBounds)
  else
    match fetchInstruction s with
    | .error e => .next (s.enterFault e)
    | .ok i => exec i s

/-- One step (R170, R174, R176). While the core is not running, only the host's transactions move it. -/
def step (s : State) : Host.Outcome State Fault Refusal :=
  match s.runState with
  | .running => coreStep s
  | .loaded | .haltedNormal | .haltedOutOfBounds | .haltedFault => hostStep s

/-- The instruction with bits `w` stored where the next step fetches it, so that step runs it (log 7, 17). -/
def State.withFetchWord (s : State) (nbits w : Nat) : State := placeInstruction s nbits w

end Sys2Proof.Machine
end

