-- ==== Sys2Proof/Machine/Run.lean ====
section
/-! DEFINITION. A run under fuel and what it leaves (46_dispatch.md R177). -/

namespace Sys2Proof.Machine

/-- The terminal values of `run_state` (10_state.md R25, 46_dispatch.md R176). -/
def RunState.terminal : RunState → Bool
  | .loaded | .running => false
  | .haltedNormal | .haltedOutOfBounds | .haltedFault => true

/-- What a run leaves (R177). -/
structure RunRecord where
  terminalState : RunState
  pc : Word
  rb : Word
  mem : Memory
  fault : FaultStatus
  /-- The sequence of output words (42_io.md R124; log 13). -/
  output : List Word
  /-- The number of input items consumed (R124; log 13). -/
  inputItems : Nat
  deriving DecidableEq, Repr

/-- What the run that ends in `s` leaves. -/
def State.leaves (s : State) : RunRecord :=
  { terminalState := s.runState
    pc := s.pc
    rb := s.rb
    mem := s.mem
    fault := s.fault
    output := s.output
    inputItems := s.consumed.length }

/-- How a run under fuel comes out (R177). -/
inductive RunOutcome where
  /-- The run has ended in a terminal state. -/
  | ended (left : RunRecord)
  /-- The run has not ended at `s`: the fuel is spent, or `s` has no step (42_io.md R125; log 20). -/
  | notEnded (s : State)
  deriving DecidableEq, Repr

/-- A run of at most `fuel` steps (R177). It ends in a terminal state and nowhere else: fuel that runs out, and
a core that waits, are not ended. -/
def runUnderFuel : Nat → State → RunOutcome
  | 0, s => if s.runState.terminal then .ended s.leaves else .notEnded s
  | fuel + 1, s =>
    if s.runState.terminal then .ended s.leaves
    else
      match step s with
      | .next t => runUnderFuel fuel t
      | .fault _ => .notEnded s
      | .refused _ => .notEnded s

end Sys2Proof.Machine
end

