-- ==== Sys2Proof/Safety.lean ====
section
/-! DEFINITION. The terms claims are stated in: what an operand reads and names, which fault records the
spec allows, when a run has ended, and the invariant of the machine. -/

namespace Sys2Proof.Machine

/-- `raw` is the operand word `i` of the instruction at `pc`: `M[pc + i]`, a cell that exists
(30_encoding.md R64, 20_memory.md R41). -/
def OperandIs (s : State) (i : Fin 4) (raw : Word) : Prop :=
  InBounds s.config.capacity (s.pc + BitVec.ofNat 64 i.val) ∧ s.mem.get (cellOf (s.pc + BitVec.ofNat 64 i.val)) = raw

/-- Address `a` exists and its cell holds `v` (20_memory.md R41). -/
def CellIs (s : State) (a v : Word) : Prop := InBounds s.config.capacity a ∧ s.mem.get (cellOf a) = v

/-- Read operand `i` in `mode` is readable and its value is `v` (30_encoding.md R67, R69). -/
def Reads (s : State) (i : Fin 4) (mode : Mode) (v : Word) : Prop :=
  ∃ raw, OperandIs s i raw ∧
    match mode with
    | .position => CellIs s raw v
    | .immediate => raw = v
    | .relative => CellIs s (s.rb + raw) v
    | .unknown _ => False

/-- Destination operand `i` in `mode` names address `dest` (R68, R69). It need not exist. -/
def Names (s : State) (i : Fin 4) (mode : Mode) (dest : Word) : Prop :=
  ∃ raw, OperandIs s i raw ∧
    match mode with
    | .position => raw = dest
    | .immediate | .relative | .unknown _ => s.rb + raw = dest

/-- Operand word `i` cannot be fetched: the `OPERAND_FETCH` fault of 60_exceptions.md R202. -/
def OperandFaults (s : State) (i : Fin 4) (e : FaultInfo) : Prop :=
  ¬ InBounds s.config.capacity (s.pc + BitVec.ofNat 64 i.val) ∧
    e = ⟨.memoryFault, .operandFetch, i, s.pc + BitVec.ofNat 64 i.val⟩

/-- Read operand `i` in `mode` raises `e`: its word cannot be fetched, or its mode is unknown (R201), or the
address it reads does not exist (R202). -/
def SourceFaults (s : State) (i : Fin 4) (mode : Mode) (e : FaultInfo) : Prop :=
  OperandFaults s i e ∨ ∃ raw, OperandIs s i raw ∧
    match mode with
    | .position => ¬ InBounds s.config.capacity raw ∧ e = ⟨.memoryFault, .read, i, raw⟩
    | .immediate => False
    | .relative => ¬ InBounds s.config.capacity (s.rb + raw) ∧ e = ⟨.memoryFault, .read, i, s.rb + raw⟩
    | .unknown digit => e = ⟨.unknownAddressingMode, .read, i, BitVec.ofNat 64 digit⟩

/-- The state fault entry leaves (60_exceptions.md R205): `HaltedFault` and the record; nothing else changes. -/
def faulted (s : State) (e : FaultInfo) : State :=
  { s with runState := .haltedFault, fault := ⟨e.cause, e.kind, e.operand, e.value, s.pc⟩ }

/-- The four instructions of format `F3` (30_encoding.md R64) with these modes. -/
def IsF3 (i : Instr) (m1 m2 m3 : Mode) : Prop :=
  i = .add m1 m2 m3 ∨ i = .mul m1 m2 m3 ∨ i = .lt m1 m2 m3 ∨ i = .eq m1 m2 m3

/-- The instruction raises `ArithmeticOverflow` on operands `a` and `b` (41_alu.md R100). -/
def Overflows (s : State) (i : Instr) (a b : Word) : Prop :=
  s.config.overflowPolicy = .fault ∧
    match i with
    | .add _ _ _ => ¬ InI64 (a.toInt + b.toInt)
    | .mul _ _ _ => ¬ InI64 (a.toInt * b.toInt)
    | .inp _ | .out _ | .jit _ _ | .jif _ _ | .lt _ _ _ | .eq _ _ _ | .arb _ | .halt | .unrecognized _ => False

/-- `v` is the word the `F3` instruction computes from operands `a` and `b` (41_alu.md R102, R104, R106, R108). -/
def Computes (i : Instr) (a b v : Word) : Prop :=
  match i with
  | .add _ _ _ => v = BitVec.ofInt 64 (a.toInt + b.toInt)
  | .mul _ _ _ => v = BitVec.ofInt 64 (a.toInt * b.toInt)
  | .lt _ _ _ => v = if a.toInt < b.toInt then 1 else 0
  | .eq _ _ _ => v = if a.toInt = b.toInt then 1 else 0
  | .inp _ | .out _ | .jit _ _ | .jif _ _ | .arb _ | .halt | .unrecognized _ => False

/-- `dest` is the address the instruction's destination operand names. OUT, the jumps, ARB, HALT and
unrecognized opcodes have no destination (30_encoding.md R64). -/
def StoresAt (s : State) (i : Instr) (dest : Word) : Prop :=
  match i with
  | .add _ _ m3 | .mul _ _ m3 | .lt _ _ m3 | .eq _ _ m3 => Names s 3 m3 dest
  | .inp m1 => Names s 1 m1 dest
  | .out _ | .jit _ _ | .jif _ _ | .arb _ | .halt | .unrecognized _ => False

/-- A mode that does not involve `rb` when its operand is read (30_encoding.md R67). -/
def Mode.readsNoRb : Mode → Bool
  | .position | .immediate | .unknown _ => true
  | .relative => false

/-- The instruction has no relative read operand, no relative destination (R68), and is not ARB, whose
effect is on `rb`. -/
def Instr.usesNoRb : Instr → Bool
  | .add m1 m2 m3 => Mode.readsNoRb m1 && Mode.readsNoRb m2 && decide (m3 = .position)
  | .mul m1 m2 m3 => Mode.readsNoRb m1 && Mode.readsNoRb m2 && decide (m3 = .position)
  | .inp m1 => decide (m1 = .position)
  | .out m1 => Mode.readsNoRb m1
  | .jit m1 m2 => Mode.readsNoRb m1 && Mode.readsNoRb m2
  | .jif m1 m2 => Mode.readsNoRb m1 && Mode.readsNoRb m2
  | .lt m1 m2 m3 => Mode.readsNoRb m1 && Mode.readsNoRb m2 && decide (m3 = .position)
  | .eq m1 m2 m3 => Mode.readsNoRb m1 && Mode.readsNoRb m2 && decide (m3 = .position)
  | .arb _ => false
  | .halt => true
  | .unrecognized _ => true

/-- `ArbRun s as t`: ARB instructions with operands `as`, one after another, lead from `s` to `t`. -/
inductive ArbRun : State → List Word → State → Prop where
  | nil (s : State) : ArbRun s [] s
  | cons {s t u : State} {mode : Mode} {a : Word} {as : List Word} :
      Reads s 1 mode a → exec (.arb mode) s = .next t → ArbRun t as u → ArbRun s (a :: as) u

/-- The three terminal states (46_dispatch.md R176). -/
def Ended (s : State) : Prop :=
  s.runState = .haltedNormal ∨ s.runState = .haltedOutOfBounds ∨ s.runState = .haltedFault

/-- `RunTo n s t`: `n` steps, none of them from a terminal state, lead from `s` to `t`. -/
inductive RunTo : Nat → State → State → Prop where
  | refl (s : State) : RunTo 0 s s
  | head {n : Nat} {s t u : State} : ¬ Ended s → step s = .next t → RunTo n t u → RunTo (n + 1) s u

/-- The step from `s` does not write cell `k`: a running core whose instruction's destination is not that cell,
or a core that is not running and to which the host loads no image that fits. -/
def StepSparesCell (s : State) (k : Nat) : Prop :=
  (s.runState = .running ∧ ∀ i dest, fetchInstruction s = .ok i → StoresAt s i dest →
    InBounds s.config.capacity dest → k ≠ dest.toInt.toNat) ∨
  (s.runState ≠ .running ∧ ∀ words, s.host.head? = some (.load words) → s.config.capacity < words.length)

/-- `CellNotWritten k s t`: steps that do not write cell `k` lead from `s` to `t`. -/
inductive CellNotWritten (k : Nat) : State → State → Prop where
  | refl (s : State) : CellNotWritten k s s
  | tail {s t u : State} : CellNotWritten k s t → StepSparesCell t k → step t = .next u → CellNotWritten k s u

/-- The fault records the spec allows, cause by cause (60_exceptions.md R201-R204). -/
def FaultStatus.legal (c : Config) (f : FaultStatus) : Prop :=
  match f.cause with
  | .none => False
  | .unknownAddressingMode =>
    f.kind = .read ∧ (f.operand = 1 ∨ f.operand = 2) ∧ 3 ≤ f.value.toNat ∧ f.value.toNat ≤ 9
  | .memoryFault =>
    ¬ InBounds c.capacity f.value ∧
      (f.kind = .fetch ∧ f.operand = 0 ∨ f.kind = .operandFetch ∧ f.operand ≠ 0 ∨
        f.kind = .read ∧ (f.operand = 1 ∨ f.operand = 2) ∨ f.kind = .write ∧ (f.operand = 1 ∨ f.operand = 3))
  | .ioFault => (f.kind = .input ∨ f.kind = .output) ∧ f.operand = 0 ∧ f.value = 0
  | .negativeInstructionWord => c.negDecode = .fault ∧ f.kind = .fetch ∧ f.operand = 0 ∧ f.value.toInt < 0
  | .arithmeticOverflow => c.overflowPolicy = .fault ∧ f.kind = .alu ∧ f.operand = 0 ∧ f.value = 0

/-- The invariant of the machine. It holds at reset, and every step keeps it. -/
structure State.Inv (s : State) : Prop where
  /-- `1 <= CAPACITY <= 2^62` (00_scope.md R6). -/
  capacity : s.config.wf = true
  /-- Memory has its canonical form. -/
  memCanonical : s.mem.wf = true
  /-- Memory has no cell outside `[0, CAPACITY)` (10_state.md R31). -/
  memWithin : s.mem.within s.config.capacity = true
  /-- `loaded_length` lies in `0..CAPACITY` (R27). -/
  loadedWithin : s.loadedLength ≤ s.config.capacity
  /-- The input stream is a stream of the mode (42_io.md R121; log 10). -/
  streamFits : s.input.items.all (InputItem.fits s.ioMode) = true
  /-- The fault status is written only when the run ends in `HaltedFault` (R26). -/
  faultClear : s.runState ≠ .haltedFault → s.fault = FaultStatus.clear
  /-- A fault is recorded as 60_exceptions.md R201-R204 say. -/
  faultLegal : s.runState = .haltedFault → s.fault.legal s.config
  /-- A fault leaves `pc` at the faulting instruction (R205). -/
  faultPc : s.runState = .haltedFault → s.fault.pc = s.pc
  /-- `HaltedOutOfBounds` is entered by the fetch limit only (46_dispatch.md R171). -/
  outOfBounds : s.runState = .haltedOutOfBounds → (s.loadedLength : Int) ≤ s.pc.toInt
  /-- `HaltedNormal` leaves `pc` at the HALT word (45_halt_and_unrecognized.md R160). -/
  haltWord : s.runState = .haltedNormal → fetchInstruction s = .ok .halt
  /-- `Loaded` is the reset state (70_reset_and_hazards.md R230). -/
  loadedReset : s.runState = .loaded → s.pc = 0 ∧ s.rb = 0

end Sys2Proof.Machine
end

