-- ==== Sys2Proof/Certificates/Slice0/Obligations.lean ====
section
/-! DEFINITION. The statements for the provers. Each docstring names the rules of spec/ it formalises; "derived"
ones say which clause is the spec's own decision or the model's choice. -/

section

open Sys2Proof Sys2Proof.Machine

/-! ## Encoding -/

/-- The decode vectors E1 to E14 of 95_test_vectors.md, with one word of every other row. Opcode numbers 3 to 9
are the spec's decision D1, negative words its decision D3. -/
def Obligations.SampleWordsDecode : Prop :=
  decode .trunc 1002 = .ok (.mul .position .immediate .position) ∧
  decode .trunc 21107 = .ok (.lt .immediate .immediate .relative) ∧
  decode .trunc 1000001 = .ok (.add .position .position .position) ∧
  decode .trunc 99 = .ok .halt ∧ decode .trunc 1099 = .ok .halt ∧
  decode .trunc 21199 = .ok .halt ∧ decode .trunc 99999 = .ok .halt ∧
  decode .trunc 100 = .ok (.unrecognized 0) ∧ decode .trunc 20000 = .ok (.unrecognized 0) ∧
  decode .trunc 0 = .ok (.unrecognized 0) ∧
  decode .trunc 123456 = .ok (.unrecognized 56) ∧
  decode .trunc (-1) = .ok (.unrecognized (-1)) ∧
  decode .floor (-1) = .ok .halt ∧
  decode .fault (-1) = .error .negativeInstructionWord ∧
  decode .trunc (-99) = .ok (.unrecognized (-99)) ∧
  decode .floor (-99) = .ok (.add (.unknown 9) (.unknown 9) (.unknown 9)) ∧
  decode .floor (-101) = .ok .halt ∧
  decode .trunc (-9223372036854775808) = .ok (.unrecognized (-8)) ∧
  decode .floor (-9223372036854775808) = .ok (.unrecognized 92) ∧
  decode .trunc 303 = .ok (.inp (.unknown 3)) ∧
  decode .trunc 104 = .ok (.out .immediate) ∧
  decode .trunc 2105 = .ok (.jit .immediate .relative) ∧
  decode .trunc 1006 = .ok (.jif .position .immediate) ∧
  decode .trunc 11208 = .ok (.eq .relative .immediate .immediate) ∧
  decode .trunc 209 = .ok (.arb .relative)

/-- Decoding an encoded well-formed instruction gives it back, every mode digit at every value, under every
`NEG_DECODE` (a negative opcode exists only under `TRUNC`). 30_encoding.md R60-R66, R75. -/
def Obligations.DecodeEncodeRoundTrip : Prop :=
  ∀ (nd : NegDecode) (i : Instr), i.WellFormed → (nd = .trunc ∨ 0 ≤ i.opcode) → decode nd (encode i) = .ok i

/-- The decoder answers only well-formed instructions: every mode it gives is one decimal digit and every
unrecognized opcode lies outside the opcode map. 30_encoding.md R62, R63, R66, R71. -/
def Obligations.DecodedInstrIsWellFormed : Prop :=
  ∀ (nd : NegDecode) (w : Word) (i : Instr), decode nd w = .ok i → i.WellFormed

/-- A non-negative word decodes by its opcode digits and the mode digits of its own operands alone: a word
that agrees with it there decodes alike. Format lengths are the spec's decision D1, digits 5 and up its
decision D4, absent operands' digits its inference R65. -/
def Obligations.OnlyOwnDigitsMatter : Prop :=
  ∀ (nd : NegDecode) (v w : Word) (i : Instr), 0 ≤ v.toInt → 0 ≤ w.toInt → decode nd v = .ok i →
    v.toInt % 10 ^ (i.length + 1) = w.toInt % 10 ^ (i.length + 1) → decode nd w = .ok i

/-- Negative words: unrecognized under `TRUNC`, refused under `FAULT`, and under `FLOOR` decoded as a
non-negative word with the same floored digits. 30_encoding.md R62, the spec's decision D3. -/
def Obligations.NegativeWordsFollowNegDecode : Prop :=
  ∀ w : Word, w.toInt < 0 →
    decode .trunc w = .ok (.unrecognized (w.toInt.tmod 100)) ∧
    decode .fault w = .error .negativeInstructionWord ∧
    ∀ v : Word, 0 ≤ v.toInt → v.toInt % 100000 = w.toInt % 100000 → decode .floor w = decode .trunc v

/-- R72, R161: every word decodes but a negative one under `FAULT`; an opcode outside the map decodes to the
unrecognized row, as every negative one under `TRUNC` does; and that row executes as `pc <- pc + 1`, all
else unchanged, never an error. -/
def Obligations.UnrecognizedOpcodeIsNoOp : Prop :=
  (∀ (nd : NegDecode) (w : Word),
    (∀ e, decode nd w = .error e ↔ nd = .fault ∧ w.toInt < 0 ∧ e = .negativeInstructionWord) ∧
    (¬ (nd = .fault ∧ w.toInt < 0) → ∀ op, op = opField nd w.toInt → ¬ ((1 ≤ op ∧ op ≤ 9) ∨ op = 99) →
      decode nd w = .ok (.unrecognized op))) ∧
  (∀ w : Word, w.toInt < 0 → decode .trunc w = .ok (.unrecognized (w.toInt.tmod 100))) ∧
  (∀ (op : Int) (s : State), exec (.unrecognized op) s = .next { s with pc := s.pc + 1 })

/-! ## Memory and operands -/

/-- A read in bounds returns the cell, a read outside raises `MemoryFault` with the address; right after a load a
cell holds the image word, and 0 above the image (20_memory.md R41). What a cell not written since then reads is
UnwrittenCellReadsResetWord. -/
def Obligations.MemReadChecksBounds : Prop :=
  (∀ (s : State) (kind : FaultKind) (i : Fin 4) (a : Word),
    (0 ≤ a.toInt ∧ a.toInt < s.config.capacity → memRead s kind i a = .ok (s.mem.get a.toInt.toNat)) ∧
    (¬ (0 ≤ a.toInt ∧ a.toInt < s.config.capacity) → memRead s kind i a = .error ⟨.memoryFault, kind, i, a⟩)) ∧
  (∀ (s : State) (words : List Word) (k : Nat), (s.load words).mem.get k = words.getD k 0)

/-- R42: a write in bounds changes exactly its cell, to the word written; a write outside raises `MemoryFault`
with the address and yields no memory. The memory's canonical form is an invariant (StepKeepsInv). -/
def Obligations.MemWriteChangesOneCell : Prop :=
  ∀ (s : State) (i : Fin 4) (a v : Word), s.mem.wf = true →
    (0 ≤ a.toInt ∧ a.toInt < s.config.capacity →
      ∃ m, memWrite s i a v = .ok m ∧ m.get a.toInt.toNat = v ∧
        ∀ k, k ≠ a.toInt.toNat → m.get k = s.mem.get k) ∧
    (¬ (0 ≤ a.toInt ∧ a.toInt < s.config.capacity) → memWrite s i a v = .error ⟨.memoryFault, .write, i, a⟩)

/-- 30_encoding.md R67, with R69 (the wrap is the spec's decision D6): position reads the cell the operand word
names, immediate is the word itself, relative reads the cell at `wrap64(rb + raw)`, any other mode faults. -/
def Obligations.ReadOperandByMode : Prop :=
  ∀ (s : State) (i : Fin 4) (raw : Word),
    readOperand s i .position raw = memRead s .read i raw ∧
    readOperand s i .immediate raw = .ok raw ∧
    readOperand s i .relative raw = memRead s .read i (BitVec.ofInt 64 (s.rb.toInt + raw.toInt)) ∧
    ∀ d, readOperand s i (.unknown d) raw = .error ⟨.unknownAddressingMode, .read, i, BitVec.ofNat 64 d⟩

/-- R68: mode 0 is the operand word itself, every non-zero mode digit is `wrap64(rb + raw)`, and a destination
whose word has been fetched never faults, wherever it points. -/
def Obligations.WriteAddressTwoWayCollapse : Prop :=
  ∀ (s : State) (i : Fin 4) (mode : Mode) (raw : Word),
    writeAddress s .position raw = raw ∧
    (mode ≠ .position → writeAddress s mode raw = BitVec.ofInt 64 (s.rb.toInt + raw.toInt)) ∧
    (fetchOperand s i = .ok raw → destination s i mode = .ok (writeAddress s mode raw))

/-! ## ADD, MUL, LT, EQ -/

/-- ADD completes (41_alu.md R102): operands readable, destination a cell, no `ArithmeticOverflow`. It stores
`wrap64(a + b)` and advances by 4; nothing else changes. The wrap is the spec's decision D5. -/
def Obligations.AddStoresSum : Prop :=
  ∀ (s : State) (m1 m2 m3 : Mode) (a b dest : Word),
    Reads s 1 m1 a → Reads s 2 m2 b → Names s 3 m3 dest → InBounds s.config.capacity dest →
    (s.config.overflowPolicy = .wrap ∨ InI64 (a.toInt + b.toInt)) →
    exec (.add m1 m2 m3) s =
      .next { s with mem := s.mem.set dest.toInt.toNat (BitVec.ofInt 64 (a.toInt + b.toInt)), pc := s.pc + 4 }

/-- MUL completes (41_alu.md R104), as ADD, storing `wrap64(a * b)`. The wrap is the spec's decision D5. -/
def Obligations.MulStoresProduct : Prop :=
  ∀ (s : State) (m1 m2 m3 : Mode) (a b dest : Word),
    Reads s 1 m1 a → Reads s 2 m2 b → Names s 3 m3 dest → InBounds s.config.capacity dest →
    (s.config.overflowPolicy = .wrap ∨ InI64 (a.toInt * b.toInt)) →
    exec (.mul m1 m2 m3) s =
      .next { s with mem := s.mem.set dest.toInt.toNat (BitVec.ofInt 64 (a.toInt * b.toInt)), pc := s.pc + 4 }

/-- LT completes (41_alu.md R106) under every `OVERFLOW_POLICY`, storing 1 or 0 by the signed comparison. -/
def Obligations.LtStoresComparison : Prop :=
  ∀ (s : State) (m1 m2 m3 : Mode) (a b dest : Word),
    Reads s 1 m1 a → Reads s 2 m2 b → Names s 3 m3 dest → InBounds s.config.capacity dest →
    exec (.lt m1 m2 m3) s =
      .next { s with mem := s.mem.set dest.toInt.toNat (if a.toInt < b.toInt then 1 else 0), pc := s.pc + 4 }

/-- EQ completes (41_alu.md R108) under every `OVERFLOW_POLICY`, storing 1 or 0 by equality. -/
def Obligations.EqStoresComparison : Prop :=
  ∀ (s : State) (m1 m2 m3 : Mode) (a b dest : Word),
    Reads s 1 m1 a → Reads s 2 m2 b → Names s 3 m3 dest → InBounds s.config.capacity dest →
    exec (.eq m1 m2 m3) s =
      .next { s with mem := s.mem.set dest.toInt.toNat (if a.toInt = b.toInt then 1 else 0), pc := s.pc + 4 }

/-- The faults of the `F3` instructions in the order of 60_exceptions.md R206 (decisions D8, D10): operand 1,
then operand 2 once operand 1 has been read, then operand word 3, then `ArithmeticOverflow`, then the write. -/
def Obligations.F3FaultsInOrder : Prop :=
  ∀ (s : State) (i : Instr) (m1 m2 m3 : Mode), IsF3 i m1 m2 m3 →
    (∀ e, SourceFaults s 1 m1 e → exec i s = .next (faulted s e)) ∧
    (∀ a e, Reads s 1 m1 a → SourceFaults s 2 m2 e → exec i s = .next (faulted s e)) ∧
    (∀ a b e, Reads s 1 m1 a → Reads s 2 m2 b → OperandFaults s 3 e → exec i s = .next (faulted s e)) ∧
    (∀ a b dest, Reads s 1 m1 a → Reads s 2 m2 b → Names s 3 m3 dest → Overflows s i a b →
      exec i s = .next (faulted s ⟨.arithmeticOverflow, .alu, 0, 0⟩)) ∧
    (∀ a b dest, Reads s 1 m1 a → Reads s 2 m2 b → Names s 3 m3 dest → ¬ Overflows s i a b →
      ¬ InBounds s.config.capacity dest → exec i s = .next (faulted s ⟨.memoryFault, .write, 3, dest⟩))

/-- R103, R105 and R100: under `WRAP` the sum and the product are the 64-bit sum and product of the words;
under `FAULT` exactly the results outside `i64` raise `ArithmeticOverflow`. The spec's decision D5. -/
def Obligations.OverflowPolicyLaws : Prop :=
  ∀ a b : Word,
    aluAdd .wrap a b = .ok (a + b) ∧ aluMul .wrap a b = .ok (a * b) ∧
    (aluAdd .fault a b = .error ⟨.arithmeticOverflow, .alu, 0, 0⟩ ↔ ¬ InI64 (a.toInt + b.toInt)) ∧
    (aluMul .fault a b = .error ⟨.arithmeticOverflow, .alu, 0, 0⟩ ↔ ¬ InI64 (a.toInt * b.toInt)) ∧
    (∀ policy v, aluAdd policy a b = .ok v → InI64 (a.toInt + b.toInt) → v.toInt = a.toInt + b.toInt) ∧
    (∀ policy v, aluMul policy a b = .ok v → InI64 (a.toInt * b.toInt) → v.toInt = a.toInt * b.toInt)

/-- R107, R109 (inferences of the spec): LT and EQ answer 0 or 1, and exactly one of `lt(a, b)`, `lt(b, a)`,
`eq(a, b)` is 1. -/
def Obligations.ComparisonTrichotomy : Prop :=
  ∀ a b : Word,
    (aluLt a b = 0 ∨ aluLt a b = 1) ∧ (aluEq a b = 0 ∨ aluEq a b = 1) ∧
    (aluLt a b).toNat + (aluLt b a).toNat + (aluEq a b).toNat = 1

/-! ## IN and OUT -/

/-- IN completes (42_io.md R126): the next item is consumed, stored, and `pc` advances by 2. That the item is
the first of a list is the model's form of the oracle (log 10). -/
def Obligations.InStoresInput : Prop :=
  ∀ (s : State) (m1 : Mode) (dest : Word) (n : Int) (rest : List InputItem),
    Names s 1 m1 dest → InBounds s.config.capacity dest → s.input.items = .datum n :: rest → InI64 n →
    exec (.inp m1) s =
      .next { s with
        input := { s.input with items := rest }
        consumed := s.consumed ++ [BitVec.ofInt 64 n]
        mem := s.mem.set dest.toInt.toNat (BitVec.ofInt 64 n)
        pc := s.pc + 2 }

/-- IN at end of stream (42_io.md R121, R122; decisions D14, D15): `CHAR` mode stores `EOF_SENTINEL`, whatever
it is; `DECIMAL` mode raises `IoFault`. -/
def Obligations.InAtEndOfStream : Prop :=
  ∀ (s : State) (m1 : Mode) (dest : Word),
    Names s 1 m1 dest → s.input.items = [] → s.input.ended = true →
    (s.ioMode = .char → InBounds s.config.capacity dest →
      exec (.inp m1) s =
        .next { s with
          consumed := s.consumed ++ [s.config.eofSentinel]
          mem := s.mem.set dest.toInt.toNat s.config.eofSentinel
          pc := s.pc + 2 }) ∧
    (s.ioMode = .decimal → exec (.inp m1) s = .next (faulted s ⟨.ioFault, .input, 0, 0⟩))

/-- The faults of IN (42_io.md R126, R122; decisions D15, D17): the operand word first, before any input is
requested; an item that cannot be delivered gives `IoFault`; a destination that is no cell gives
`MemoryFault`, the item consumed, and so it does for the `EOF_SENTINEL` of `CHAR` mode (R121, decision D14). That
the input is a list of items, and its end sticky, is the model's choice (log 10). -/
def Obligations.InFaults : Prop :=
  ∀ (s : State) (m1 : Mode),
    (∀ e, OperandFaults s 1 e → exec (.inp m1) s = .next (faulted s e)) ∧
    (∀ dest item rest, Names s 1 m1 dest → s.input.items = item :: rest →
      (item = .malformed ∨ item = .unreadable ∨ ∃ n, item = .datum n ∧ ¬ InI64 n) →
      exec (.inp m1) s =
        .next (faulted { s with input := { s.input with items := rest } } ⟨.ioFault, .input, 0, 0⟩)) ∧
    (∀ dest n rest, Names s 1 m1 dest → ¬ InBounds s.config.capacity dest → s.input.items = .datum n :: rest →
      InI64 n →
      exec (.inp m1) s =
        .next (faulted
          { s with input := { s.input with items := rest }, consumed := s.consumed ++ [BitVec.ofInt 64 n] }
          ⟨.memoryFault, .write, 1, dest⟩)) ∧
    (∀ dest, Names s 1 m1 dest → ¬ InBounds s.config.capacity dest → s.input.items = [] → s.input.ended = true →
      s.ioMode = .char →
      exec (.inp m1) s =
        .next (faulted { s with consumed := s.consumed ++ [s.config.eofSentinel] } ⟨.memoryFault, .write, 1, dest⟩))

/-- OUT completes (42_io.md R127) when the port answers `Ok`: the whole word is added to the output sequence
and `pc` advances by 2. The port's answers as data are the model's form (log 11). -/
def Obligations.OutEmitsWord : Prop :=
  ∀ (s : State) (m1 : Mode) (a : Word), Reads s 1 m1 a →
    (∀ rest, s.outPort.answers = .ok :: rest →
      exec (.out m1) s =
        .next { s with outPort := { s.outPort with answers := rest }, output := s.output ++ [a], pc := s.pc + 2 }) ∧
    (s.outPort.answers = [] → s.outPort.takesAll = true →
      exec (.out m1) s = .next { s with output := s.output ++ [a], pc := s.pc + 2 })

/-- The faults of OUT (42_io.md R127, R123; decision D16): its operand's, with no output; and `IoFault` when
the port answers `Fault`, which records no output item. -/
def Obligations.OutFaults : Prop :=
  ∀ (s : State) (m1 : Mode),
    (∀ e, SourceFaults s 1 m1 e → exec (.out m1) s = .next (faulted s e)) ∧
    (∀ a rest, Reads s 1 m1 a → s.outPort.answers = .fault :: rest →
      exec (.out m1) s =
        .next (faulted { s with outPort := { s.outPort with answers := rest } } ⟨.ioFault, .output, 0, 0⟩))

/-- 42_io.md R125: while the port has not answered, the core has no step: `step` answers a stop, no state. That
the stop is the outcome `fault inputWait` or `fault outputWait` is the model's form (log 9). -/
def Obligations.PortWaitHasNoStep : Prop :=
  ∀ (s : State) (m1 : Mode), s.runState = .running → s.pc.toInt < s.loadedLength →
    (∀ dest, fetchInstruction s = .ok (.inp m1) → Names s 1 m1 dest → s.input.items = [] → s.input.ended = false →
      step s = .fault .inputWait) ∧
    (∀ a, fetchInstruction s = .ok (.out m1) → Reads s 1 m1 a → s.outPort.answers = [] → s.outPort.takesAll = false →
      step s = .fault .outputWait)

/-- R120: only IN touches the input port and only OUT the output port; an IN that does not fault makes exactly
one request and consumes the word it is answered, an OUT that does not fault makes one and emits one word, each
added at the end. -/
def Obligations.OnlyInAndOutUsePorts : Prop :=
  ∀ (i : Instr) (s t : State), exec i s = .next t →
    ((∀ m, i ≠ .inp m) → t.input = s.input ∧ t.consumed = s.consumed) ∧
    ((∀ m, i ≠ .out m) → t.outPort = s.outPort ∧ t.output = s.output) ∧
    (s.runState ≠ .haltedFault → t.runState ≠ .haltedFault →
      (∀ m, i = .inp m → ∃ v, s.input.request s.ioMode s.config.eofSentinel = some (.value v, t.input) ∧
        t.consumed = s.consumed ++ [v]) ∧
      (∀ m, i = .out m → ∃ v, s.outPort.request = some (.ok, t.outPort) ∧ t.output = s.output ++ [v]))

/-! ## Jumps -/

/-- JIT completes (43_jumps.md R140, R142): `pc <- b` if `a` is not 0, else `pc + 3`; nothing else changes. Both
operands are read, taken or not (decision D8). -/
def Obligations.JitJumpsWhenNonzero : Prop :=
  ∀ (s : State) (m1 m2 : Mode) (a b : Word), Reads s 1 m1 a → Reads s 2 m2 b →
    (a.toInt ≠ 0 → exec (.jit m1 m2) s = .next { s with pc := b }) ∧
    (a.toInt = 0 → exec (.jit m1 m2) s = .next { s with pc := s.pc + 3 })

/-- JIF completes (43_jumps.md R141, R142): `pc <- b` if `a` is 0, else `pc + 3`; nothing else changes. Both
operands are read, taken or not (decision D8). -/
def Obligations.JifJumpsWhenZero : Prop :=
  ∀ (s : State) (m1 m2 : Mode) (a b : Word), Reads s 1 m1 a → Reads s 2 m2 b →
    (a.toInt = 0 → exec (.jif m1 m2) s = .next { s with pc := b }) ∧
    (a.toInt ≠ 0 → exec (.jif m1 m2) s = .next { s with pc := s.pc + 3 })

/-- Both jumps fault on operand 1, then on operand 2, even when the jump would not be taken. 43_jumps.md R140,
R141; the spec's decision D8. -/
def Obligations.JumpOperandsAreEager : Prop :=
  ∀ (s : State) (i : Instr) (m1 m2 : Mode), (i = .jit m1 m2 ∨ i = .jif m1 m2) →
    (∀ e, SourceFaults s 1 m1 e → exec i s = .next (faulted s e)) ∧
    (∀ a e, Reads s 1 m1 a → SourceFaults s 2 m2 e → exec i s = .next (faulted s e))

/-! ## ARB -/

/-- ARB (44_relative_base.md R150): `rb <- wrap64(rb + a)` with `a` read through the old `rb`, `pc + 2`, nothing
else changes; its only faults are its operand's. The wrap is the spec's decision D6. -/
def Obligations.ArbAddsToRelativeBase : Prop :=
  ∀ (s : State) (m1 : Mode),
    (∀ a, Reads s 1 m1 a →
      exec (.arb m1) s = .next { s with rb := BitVec.ofInt 64 (s.rb.toInt + a.toInt), pc := s.pc + 2 }) ∧
    (∀ e, SourceFaults s 1 m1 e → exec (.arb m1) s = .next (faulted s e))

/-- R151, an inference of the spec: ARB instructions with operands `a_1 .. a_n` leave
`rb = wrap64(rb + a_1 + ... + a_n)`. -/
def Obligations.RelativeBaseIsSumOfOperands : Prop :=
  ∀ (s t : State) (as : List Word), ArbRun s as t →
    t.rb = BitVec.ofInt 64 (s.rb.toInt + (as.map BitVec.toInt).sum)

/-- R23: `rb` starts at 0, only ARB writes it, and only relative operands read it: any other instruction does
the same whatever `rb` is, and carries that `rb` along. -/
def Obligations.RelativeBaseWrittenByArbOnly : Prop :=
  State.reset.rb = 0 ∧
  (∀ (i : Instr) (s t : State), (∀ m, i ≠ .arb m) → exec i s = .next t → t.rb = s.rb) ∧
  (∀ (i : Instr) (s : State) (r : Word), Instr.usesNoRb i = true →
    (∀ t, exec i s = .next t → exec i { s with rb := r } = .next { t with rb := r }) ∧
    (∀ f, exec i s = .fault f → exec i { s with rb := r } = .fault f))

/-! ## HALT -/

/-- HALT (45_halt_and_unrecognized.md R160) enters `HaltedNormal` and changes nothing else; `pc` keeping the
address of the HALT word is the spec's decision D12. -/
def Obligations.HaltEntersHaltedNormal : Prop :=
  ∀ s : State, exec .halt s = .next { s with runState := .haltedNormal }

/-! ## Frames -/

/-- The frame of the storing instructions ADD, MUL, LT, EQ: only `pc`, the cell the destination names and, on a
fault, `run_state` and the fault status may change. 10_state.md R21, R30; 41_alu.md R101. -/
def Obligations.F3Frame : Prop :=
  ∀ (s t : State) (i : Instr) (m1 m2 m3 : Mode), IsF3 i m1 m2 m3 → exec i s = .next t →
    t.rb = s.rb ∧ t.config = s.config ∧ t.ioMode = s.ioMode ∧ t.loadedLength = s.loadedLength ∧
    t.input = s.input ∧ t.consumed = s.consumed ∧ t.outPort = s.outPort ∧ t.output = s.output ∧ t.host = s.host ∧
    (t.runState = s.runState ∧ t.fault = s.fault ∨ t.runState = .haltedFault ∧ t.pc = s.pc ∧ t.mem = s.mem) ∧
    ∀ k, (∀ dest, Names s 3 m3 dest → InBounds s.config.capacity dest → k ≠ dest.toInt.toNat) →
      t.mem.get k = s.mem.get k

/-- The frame of IN: only `pc`, the input port, the consumed input, the cell the destination names and, on a
fault, `run_state` and the fault status may change. 42_io.md R126. -/
def Obligations.InFrame : Prop :=
  ∀ (s t : State) (m1 : Mode), exec (.inp m1) s = .next t →
    t.rb = s.rb ∧ t.config = s.config ∧ t.ioMode = s.ioMode ∧ t.loadedLength = s.loadedLength ∧
    t.outPort = s.outPort ∧ t.output = s.output ∧ t.host = s.host ∧ t.input.ended = s.input.ended ∧
    (t.runState = s.runState ∧ t.fault = s.fault ∨ t.runState = .haltedFault ∧ t.pc = s.pc ∧ t.mem = s.mem) ∧
    ∀ k, (∀ dest, Names s 1 m1 dest → InBounds s.config.capacity dest → k ≠ dest.toInt.toNat) →
      t.mem.get k = s.mem.get k

/-- The frame of the instructions that store nothing: memory is unchanged at every address; `rb` changes only
by ARB, the output side only by OUT, `run_state` only by HALT or a fault. R127, R140, R141, R150, R160, R161. -/
def Obligations.NonStoringFrame : Prop :=
  ∀ (s t : State) (i : Instr),
    ((∃ m, i = .out m) ∨ (∃ m1 m2, i = .jit m1 m2) ∨ (∃ m1 m2, i = .jif m1 m2) ∨ (∃ m, i = .arb m) ∨ i = .halt ∨
      ∃ op, i = .unrecognized op) →
    exec i s = .next t →
    t.mem = s.mem ∧ (∀ k, t.mem.get k = s.mem.get k) ∧
    t.config = s.config ∧ t.ioMode = s.ioMode ∧ t.loadedLength = s.loadedLength ∧
    t.input = s.input ∧ t.consumed = s.consumed ∧ t.host = s.host ∧
    ((∀ m, i ≠ .arb m) → t.rb = s.rb) ∧
    ((∀ m, i ≠ .out m) → t.outPort = s.outPort ∧ t.output = s.output) ∧
    (t.fault = s.fault ∧ (i ≠ .halt → t.runState = s.runState) ∨
      t.runState = .haltedFault ∧ t.pc = s.pc ∧ t.rb = s.rb ∧ t.output = s.output)

/-! ## Faults -/

/-- Faults are precise (60_exceptions.md R205; decision D11): whatever instruction goes to `HaltedFault`, `pc`,
`rb`, memory and the output are as before it, the record holds its `pc` and a cause, and input was consumed only
by an IN whose write faulted. Without a fault, the status is not written (10_state.md R26). -/
def Obligations.FaultsArePrecise : Prop :=
  ∀ (i : Instr) (s t : State), exec i s = .next t → s.runState ≠ .haltedFault →
    (t.runState = .haltedFault →
      t.pc = s.pc ∧ t.rb = s.rb ∧ t.mem = s.mem ∧ t.loadedLength = s.loadedLength ∧ t.output = s.output ∧
      t.fault.pc = s.pc ∧ t.fault.cause ≠ .none ∧
      (t.consumed = s.consumed ∨
        (∃ m v, i = .inp m ∧ t.consumed = s.consumed ++ [v]) ∧ t.fault.cause = .memoryFault ∧ t.fault.kind = .write)) ∧
    (t.runState ≠ .haltedFault → t.fault = s.fault)

/-- A fault of the fetch (46_dispatch.md R172, decision D7; 60_exceptions.md R204, decision D3): a negative `pc`
raises `MemoryFault` with `FETCH`; a negative word under `NEG_DECODE = FAULT` raises `NegativeInstructionWord`. -/
def Obligations.FetchFaults : Prop :=
  ∀ s : State, s.runState = .running →
    (s.pc.toInt < 0 → step s = .next (faulted s ⟨.memoryFault, .fetch, 0, s.pc⟩)) ∧
    (∀ w, s.pc.toInt < s.loadedLength → CellIs s s.pc w → s.config.negDecode = .fault → w.toInt < 0 →
      step s = .next (faulted s ⟨.negativeInstructionWord, .fetch, 0, w⟩))

/-! ## Steps -/

/-- 46_dispatch.md R171, R172, 60_exceptions.md R207: at `pc >= loaded_length` the run ends in `HaltedOutOfBounds`, nothing else changes and no fault
is considered. A negative `pc` passes the check and faults at the fetch (decision D7; log 14). Where the check passes,
`pc + 4` does not overflow (`loaded_length` and `CAPACITY` bounded by the invariant). -/
def Obligations.FetchLimitEndsRun : Prop :=
  ∀ s : State, s.runState = .running →
    ((s.loadedLength : Int) ≤ s.pc.toInt → step s = .next { s with runState := .haltedOutOfBounds }) ∧
    (s.pc.toInt < 0 → step s = .next (faulted s ⟨.memoryFault, .fetch, 0, s.pc⟩)) ∧
    (s.Inv → s.pc.toInt < s.loadedLength → s.pc.toInt < 2 ^ 62 ∧ (s.pc + 4).toInt = s.pc.toInt + 4)

/-- A step runs the decoded instruction (46_dispatch.md R173, R174): a running core whose `pc` is below the fetch
limit and whose word decodes steps by `exec` of that instruction, with nothing added around it. -/
def Obligations.StepRunsDecodedInstr : Prop :=
  ∀ (s : State) (w : Word) (i : Instr), s.runState = .running → s.pc.toInt < s.loadedLength → CellIs s s.pc w →
    decode s.config.negDecode w = .ok i → step s = exec i s

/-- A store is seen by the next fetch (20_memory.md R52): an ADD, MUL, LT, EQ or IN that stores the next
instruction completes, and the step after it runs what it stored. The sums and products may wrap unless
`OVERFLOW_POLICY` is `FAULT` (decision D5); IN stores any word its port answers, `EOF_SENTINEL` too (log 10). -/
def Obligations.StoreSeenByNextFetch : Prop :=
  ∀ (s : State) (i j : Instr), s.runState = .running → s.mem.wf = true →
    (∀ m1 m2 m3 a b v, IsF3 i m1 m2 m3 → Reads s 1 m1 a → Reads s 2 m2 b → Names s 3 m3 (s.pc + 4) →
      InBounds s.config.capacity (s.pc + 4) → (s.pc + 4).toInt < s.loadedLength → ¬ Overflows s i a b →
      Computes i a b v → decode s.config.negDecode v = .ok j →
      ∃ t, exec i s = .next t ∧ step t = exec j t) ∧
    (∀ m1 v p, i = .inp m1 → Names s 1 m1 (s.pc + 2) → InBounds s.config.capacity (s.pc + 2) →
      (s.pc + 2).toInt < s.loadedLength → s.input.request s.ioMode s.config.eofSentinel = some (.value v, p) →
      decode s.config.negDecode v = .ok j →
      ∃ t, exec i s = .next t ∧ step t = exec j t)

/-- In a terminal state the core has no step of its own (46_dispatch.md R176): with no host transaction `step`
answers no next state (log 9), and with one the only change is an accepted `Load`, which begins a new run
(decision D29). That transactions are pending in a list, and one not accepted is dropped, is the model's choice
(log 12). -/
def Obligations.TerminalStatesAreFinal : Prop :=
  ∀ s : State, Ended s →
    (s.host = [] → ∀ t, step s ≠ .next t) ∧
    (∀ t, step s = .next t →
      t = { s with host := s.host.tail } ∨
      ∃ words, s.host.head? = some (.load words) ∧ words.length ≤ s.config.capacity ∧
        t.runState = .loaded ∧ t.loadedLength = words.length)

/-- `Start` in `Loaded` sets `Running` and changes nothing else (46_dispatch.md R170, 70_reset_and_hazards.md R234;
decision D30); in a terminal state it is not accepted. The pending list is the model's form (log 12). -/
def Obligations.StartBeginsRun : Prop :=
  ∀ (s : State) (rest : List HostTransaction), s.host = .start :: rest →
    (s.runState = .loaded → step s = .next { s with runState := .running, host := rest }) ∧
    (Ended s → step s = .next { s with host := rest })

/-- `Load` outside `Running` (70_reset_and_hazards.md R230, R231, R235; decisions D2, D9, D18, D29): an image that
fits resets the core and fills memory, one that does not fit is refused and the core stays as it was. -/
def Obligations.LoadResetsCore : Prop :=
  ∀ (s : State) (words : List Word) (rest : List HostTransaction),
    s.runState ≠ .running → s.host = .load words :: rest →
    (words.length ≤ s.config.capacity →
      ∃ t, step s = .next t ∧ t.pc = 0 ∧ t.rb = 0 ∧ t.runState = .loaded ∧ t.loadedLength = words.length ∧
        t.fault = ⟨.none, .none, 0, 0, 0⟩ ∧ t.ioMode = s.ioMode ∧ t.config = s.config ∧ t.host = rest ∧
        ∀ k, t.mem.get k = words.getD k 0) ∧
    (s.config.capacity < words.length → step s = .next { s with host := rest })

/-- 10_state.md R27: `loaded_length` is the number of complete words of the image and at most `CAPACITY` after an accepted
load; no step of a running core changes it, no instruction reads it, a step outside `Running` changes it only by an
accepted load, and it is host status index 6. The pending list of transactions is the model's choice (log 12);
the image format rests on decision D19. -/
def Obligations.LoadedLengthWrittenByLoadOnly : Prop :=
  (∀ bytes : List Byte, (imageWords bytes).length = bytes.length / 8) ∧
  (∀ (s t : State) (words : List Word) (rest : List HostTransaction), s.runState ≠ .running →
    s.host = .load words :: rest → words.length ≤ s.config.capacity → step s = .next t →
    t.loadedLength = words.length ∧ t.loadedLength ≤ t.config.capacity) ∧
  (∀ s t : State, step s = .next t →
    t.loadedLength = s.loadedLength ∨
    ∃ words, s.runState ≠ .running ∧ s.host.head? = some (.load words) ∧ words.length ≤ s.config.capacity) ∧
  (∀ s : State, s.runState ≠ .running → readStatus s 6 = some (BitVec.ofNat 64 s.loadedLength)) ∧
  (∀ (i : Instr) (s : State) (n : Nat),
    (∀ t, exec i s = .next t → exec i { s with loadedLength := n } = .next { t with loadedLength := n }) ∧
    (∀ f, exec i s = .fault f → exec i { s with loadedLength := n } = .fault f))

/-- 00_scope.md R7: `IO_MODE` never changes, and it changes no instruction's semantics: every instruction does the same under
the other mode, but for what the adapter answers an IN at end of stream (InAtEndOfStream). That no step changes the other
parameters is the model's choice (log 1), and so is an item's one answer in both modes (log 10). -/
def Obligations.IoModeChangesNoSemantics : Prop :=
  (∀ s t : State, step s = .next t → t.ioMode = s.ioMode ∧ t.config = s.config) ∧
  (∀ (i : Instr) (s : State) (mode : IoMode),
    ((∀ m, i ≠ .inp m) ∨ s.input.items ≠ [] ∨ s.input.ended = false) →
    (∀ t, exec i s = .next t → exec i { s with ioMode := mode } = .next { t with ioMode := mode }) ∧
    (∀ f, exec i s = .fault f → exec i { s with ioMode := mode } = .fault f))

/-- The machine stops without a next state only where the spec gives it no step: waiting for a port inside IN
or OUT (42_io.md R125), before `Start` (46_dispatch.md R170) and after the end of a run (R176), the last two with no
host transaction pending. It never refuses an instruction. -/
def Obligations.StepStopsOnlyWhereSpecGivesNoStep : Prop :=
  ∀ s : State,
    (∀ r, step s ≠ .refused r) ∧
    (∀ f, step s = .fault f →
      (s.runState = .running ∧ s.pc.toInt < s.loadedLength ∧
        ((∃ m, fetchInstruction s = .ok (.inp m)) ∧ s.input.items = [] ∧ s.input.ended = false ∧ f = .inputWait ∨
         (∃ m, fetchInstruction s = .ok (.out m)) ∧ s.outPort.answers = [] ∧ s.outPort.takesAll = false ∧
          f = .outputWait)) ∨
      (s.runState = .loaded ∧ s.host = [] ∧ f = .notStarted) ∨
      (Ended s ∧ s.host = [] ∧ f = .runEnded))

/-- The instruction placed by `withFetchWord` is the one the very next step runs, on every core with a memory in
its canonical form (the model's own operation, log 7 and 17). -/
def Obligations.PlacedInstructionRunsNext : Prop :=
  ∀ (s : State) (nbits w : Nat) (i : Instr), s.config.wf = true → s.mem.wf = true →
    decode s.config.negDecode (tableWord nbits w 0) = .ok i →
    step (s.withFetchWord nbits w) = exec i (s.withFetchWord nbits w)

/-! ## Host and reset -/

/-- 70_reset_and_hazards.md R236 (decision D20): outside `Running` the host reads status indices 0 to 9 and every
cell; during `Running` it reads nothing. The encodings are those of 10_state.md R25, R26 and R28 (decision D9). -/
def Obligations.HostReadBackOutsideRunning : Prop :=
  RunState.running.code = 1 ∧
  ∀ s : State,
    (s.runState = .running → (∀ k, readStatus s k = none) ∧ ∀ a, readCell s a = none) ∧
    (s.runState ≠ .running →
      (s.runState = .loaded → readStatus s 0 = some 0) ∧
      (s.runState = .haltedNormal → readStatus s 0 = some 2) ∧
      (s.runState = .haltedOutOfBounds → readStatus s 0 = some 3) ∧
      (s.runState = .haltedFault → readStatus s 0 = some 4) ∧
      (s.fault.cause = .none → readStatus s 1 = some 0) ∧
      (s.fault.cause = .unknownAddressingMode → readStatus s 1 = some 1) ∧
      (s.fault.cause = .memoryFault → readStatus s 1 = some 2) ∧
      (s.fault.cause = .ioFault → readStatus s 1 = some 3) ∧
      (s.fault.cause = .negativeInstructionWord → readStatus s 1 = some 4) ∧
      (s.fault.cause = .arithmeticOverflow → readStatus s 1 = some 5) ∧
      (s.fault.kind = .none → readStatus s 2 = some 0) ∧
      (s.fault.kind = .fetch → readStatus s 2 = some 1) ∧
      (s.fault.kind = .operandFetch → readStatus s 2 = some 2) ∧
      (s.fault.kind = .read → readStatus s 2 = some 3) ∧
      (s.fault.kind = .write → readStatus s 2 = some 4) ∧
      (s.fault.kind = .input → readStatus s 2 = some 5) ∧
      (s.fault.kind = .output → readStatus s 2 = some 6) ∧
      (s.fault.kind = .alu → readStatus s 2 = some 7) ∧
      readStatus s 3 = some (BitVec.ofNat 64 s.fault.operand.val) ∧
      readStatus s 4 = some s.fault.value ∧ readStatus s 5 = some s.fault.pc ∧
      readStatus s 6 = some (BitVec.ofNat 64 s.loadedLength) ∧
      (s.ioMode = .char → readStatus s 7 = some 0) ∧
      (s.ioMode = .decimal → readStatus s 7 = some 1) ∧
      readStatus s 8 = some s.pc ∧ readStatus s 9 = some s.rb ∧ (∀ k, 10 ≤ k → readStatus s k = none) ∧
      ∀ a, (a < s.config.capacity → readCell s a = some (s.mem.get a)) ∧
        (s.config.capacity ≤ a → readCell s a = none))

/-- The memory-image format (70_reset_and_hazards.md R232; decision D19): `floor(L / 8)` words, and bits
`8j + 7 .. 8j` of word `k` are byte `8k + j`, so words are little-endian and a trailing partial word is dropped. -/
def Obligations.ImageIsLittleEndianWords : Prop :=
  ∀ bytes : List Byte,
    (imageWords bytes).length = bytes.length / 8 ∧
    ∀ k j, k < bytes.length / 8 → j < 8 →
      ((imageWords bytes).getD k 0).toNat / 256 ^ j % 256 = (bytes.getD (8 * k + j) 0).toNat

/-- The reset values of 10_state.md section 4 (decisions D2, D9) in the state of a core with no image (log 7):
every cell reads 0. -/
def Obligations.ResetStateIsSpecs : Prop :=
  State.reset.pc = 0 ∧ State.reset.rb = 0 ∧ State.reset.runState = .loaded ∧ State.reset.loadedLength = 0 ∧
  State.reset.fault = ⟨.none, .none, 0, 0, 0⟩ ∧ State.reset.config.capacity = 30000 ∧
  State.reset.config.negDecode = .trunc ∧ State.reset.config.overflowPolicy = .wrap ∧
  ∀ k, State.reset.mem.get k = 0

/-- The invariant holds at reset. -/
def Obligations.InvHoldsAtReset : Prop := State.reset.Inv

/-- Every step keeps the invariant: the parameters in range, memory canonical and inside `[0, CAPACITY)`,
`loaded_length` at most `CAPACITY`, the fault status clear outside `HaltedFault` and inside it one of the records
60_exceptions.md R201-R204 allow with `fault_pc = pc`, `HaltedNormal` at a HALT word, `HaltedOutOfBounds` at the
fetch limit. -/
def Obligations.StepKeepsInv : Prop :=
  ∀ s t : State, s.Inv → step s = .next t → t.Inv

/-! ## Runs -/

/-- A run under fuel (46_dispatch.md R177): it ends exactly when at most that many steps reach a terminal state,
and leaves that state's `run_state`, `pc`, `rb`, memory, fault status, output and count of consumed input; otherwise
it has not ended, at the state where the fuel or the steps run out. A jump to itself never ends, whatever the fuel.
Fuel and the histories' start are the model's choices (log 13, 20). -/
def Obligations.RunEndsOnlyInTerminalState : Prop :=
  ∀ (n : Nat) (s : State),
    (∀ r, runUnderFuel n s = .ended r ↔
      ∃ k t, k ≤ n ∧ RunTo k s t ∧ Ended t ∧
        r = ⟨t.runState, t.pc, t.rb, t.mem, t.fault, t.output, t.consumed.length⟩) ∧
    (∀ t, runUnderFuel n s = .notEnded t ↔
      ¬ Ended t ∧ ∃ k, k ≤ n ∧ RunTo k s t ∧ (k = n ∨ ∀ u, step t ≠ .next u)) ∧
    (∀ m1 m2 a, s.runState = .running → s.pc.toInt < s.loadedLength → fetchInstruction s = .ok (.jit m1 m2) →
      Reads s 1 m1 a → a.toInt ≠ 0 → Reads s 2 m2 s.pc → runUnderFuel n s = .notEnded s)

/-- A step writes no cell its instruction does not name, so a cell not written since the load reads its reset word:
the image word at its address, and 0 above the image (20_memory.md R41, R42). That a load comes from a pending list is
the model's choice (log 12). -/
def Obligations.UnwrittenCellReadsResetWord : Prop :=
  (∀ (s t : State) (k : Nat), StepSparesCell s k → step s = .next t → t.mem.get k = s.mem.get k) ∧
  (∀ (s t : State) (words : List Word) (k : Nat), CellNotWritten k (s.load words) t →
    t.mem.get k = words.getD k 0 ∧
    ∀ kind i (a : Word), 0 ≤ a.toInt → a.toInt < t.config.capacity → k = a.toInt.toNat →
      memRead t kind i a = .ok (words.getD k 0))

end
end

