-- ==== Sys2Proof/Laws/Decode.lean ====
section
/-! SUPPORT. The small laws of the decimal encoding: digits, modes, and the value of an encoded word. -/

namespace Sys2Proof

theorem Mode.digit_bounds {m : Mode} (h : m.wf = true) : 0 ≤ m.digit ∧ m.digit ≤ 9 := by
  cases m <;> simp_all [Mode.wf, Mode.digit]

/-- The digit of a mode names that mode. -/
theorem modeOfDigit_digit {m : Mode} (h : m.wf = true) : modeOfDigit m.digit = m := by
  cases m with
  | position => rfl
  | immediate => rfl
  | relative => rfl
  | unknown d =>
    simp only [Mode.wf, decide_eq_true_eq] at h
    have h0 : (d : Int) ≠ 0 := by omega
    have h1 : (d : Int) ≠ 1 := by omega
    have h2 : (d : Int) ≠ 2 := by omega
    simp only [modeOfDigit, Mode.digit, h0, h1, h2, if_false, Int.natAbs_natCast]

/-- A decimal digit names a well-formed mode. -/
theorem modeOfDigit_wf {d : Int} (h0 : -9 ≤ d) (h9 : d ≤ 9) (h1 : d ≠ -1) (h2 : d ≠ -2) :
    (modeOfDigit d).wf = true := by
  unfold modeOfDigit
  split
  · rfl
  · split
    · rfl
    · split
      · rfl
      · simp only [Mode.wf, decide_eq_true_eq]; omega

/-- The encoded value of a well-formed instruction lies between -99 and 99999. -/
theorem Instr.encodeValue_bounds {i : Instr} (h : i.WellFormed) : -99 ≤ i.encodeValue ∧ i.encodeValue ≤ 99999 := by
  cases i with
  | add m1 m2 m3 | mul m1 m2 m3 | lt m1 m2 m3 | eq m1 m2 m3 =>
    simp only [Instr.WellFormed, Instr.wf, Bool.and_eq_true] at h
    have h1 := Mode.digit_bounds h.1.1
    have h2 := Mode.digit_bounds h.1.2
    have h3 := Mode.digit_bounds h.2
    simp only [Instr.encodeValue]; omega
  | jit m1 m2 | jif m1 m2 =>
    simp only [Instr.WellFormed, Instr.wf, Bool.and_eq_true] at h
    have h1 := Mode.digit_bounds h.1
    have h2 := Mode.digit_bounds h.2
    simp only [Instr.encodeValue]; omega
  | inp m1 | out m1 | arb m1 =>
    have h1 := Mode.digit_bounds (m := m1) h
    simp only [Instr.encodeValue]; omega
  | halt => simp [Instr.encodeValue]
  | unrecognized op =>
    simp only [Instr.WellFormed, Instr.wf, Bool.and_eq_true, decide_eq_true_eq] at h
    simp only [Instr.encodeValue]; omega

/-- The word of a well-formed instruction has its encoded value. -/
theorem encode_toInt {i : Instr} (h : i.WellFormed) : (encode i).toInt = i.encodeValue := by
  have hb := Instr.encodeValue_bounds h
  unfold encode
  rw [BitVec.toInt_ofInt, Int.bmod_eq_of_le] <;> omega

/-- A decoded word is its fields read by the opcode map. -/
theorem decode_eq_ok_iff {nd : NegDecode} {w : Word} {i : Instr} :
    decode nd w = .ok i ↔ ¬ (nd = .fault ∧ w.toInt < 0) ∧
      instrOfFields (opField nd w.toInt) (modeField nd w.toInt 1) (modeField nd w.toInt 2)
        (modeField nd w.toInt 3) = i := by
  unfold decode
  split <;> simp_all

theorem decode_eq_error_iff {nd : NegDecode} {w : Word} {e : DecodeError} :
    decode nd w = .error e ↔ nd = .fault ∧ w.toInt < 0 ∧ e = .negativeInstructionWord := by
  unfold decode
  split <;> simp_all [eq_comm]

/-- On a non-negative word the three settings of `NEG_DECODE` read the same opcode (30_encoding.md R61). -/
theorem opField_of_nonneg {n : Int} (nd : NegDecode) (h : 0 ≤ n) : opField nd n = n.emod 100 := by
  cases nd <;> simp only [opField]
  · exact Int.tmod_eq_emod_of_nonneg h
  · exact Int.fmod_eq_emod_of_nonneg n (by omega)
  · exact Int.tmod_eq_emod_of_nonneg h

/-- On a non-negative word the three settings of `NEG_DECODE` read the same digits (R63). -/
theorem digitField_of_nonneg {n : Int} (nd : NegDecode) (k : Nat) (h : 0 ≤ n) :
    digitField nd n k = (n / 10 ^ k) % 10 := by
  have hd : 0 ≤ n / 10 ^ k := Int.ediv_nonneg h (by positivity)
  cases nd <;> simp only [digitField]
  · rw [Int.tdiv_eq_ediv_of_nonneg h, Int.tmod_eq_emod_of_nonneg hd]
  · rw [Int.fdiv_eq_ediv_of_nonneg n (by positivity), Int.fmod_eq_emod_of_nonneg _ (by omega)]
  · rw [Int.tdiv_eq_ediv_of_nonneg h, Int.tmod_eq_emod_of_nonneg hd]

end Sys2Proof
end

