-- ==== Sys2Proof/Laws/State.lean ====
section
/-! SUPPORT. What each field of the state is after each named update: one lemma per field per update. -/

namespace Sys2Proof.Machine

variable (s : State)

section
variable (n : Nat)
@[simp] theorem State.advance_config : (s.advance n).config = s.config := rfl
@[simp] theorem State.advance_ioMode : (s.advance n).ioMode = s.ioMode := rfl
@[simp] theorem State.advance_pc : (s.advance n).pc = s.pc + BitVec.ofNat 64 n := rfl
@[simp] theorem State.advance_rb : (s.advance n).rb = s.rb := rfl
@[simp] theorem State.advance_runState : (s.advance n).runState = s.runState := rfl
@[simp] theorem State.advance_fault : (s.advance n).fault = s.fault := rfl
@[simp] theorem State.advance_loadedLength : (s.advance n).loadedLength = s.loadedLength := rfl
@[simp] theorem State.advance_mem : (s.advance n).mem = s.mem := rfl
@[simp] theorem State.advance_input : (s.advance n).input = s.input := rfl
@[simp] theorem State.advance_consumed : (s.advance n).consumed = s.consumed := rfl
@[simp] theorem State.advance_outPort : (s.advance n).outPort = s.outPort := rfl
@[simp] theorem State.advance_output : (s.advance n).output = s.output := rfl
@[simp] theorem State.advance_host : (s.advance n).host = s.host := rfl
end

section
variable (t : Word)
@[simp] theorem State.jump_config : (s.jump t).config = s.config := rfl
@[simp] theorem State.jump_ioMode : (s.jump t).ioMode = s.ioMode := rfl
@[simp] theorem State.jump_pc : (s.jump t).pc = t := rfl
@[simp] theorem State.jump_rb : (s.jump t).rb = s.rb := rfl
@[simp] theorem State.jump_runState : (s.jump t).runState = s.runState := rfl
@[simp] theorem State.jump_fault : (s.jump t).fault = s.fault := rfl
@[simp] theorem State.jump_loadedLength : (s.jump t).loadedLength = s.loadedLength := rfl
@[simp] theorem State.jump_mem : (s.jump t).mem = s.mem := rfl
@[simp] theorem State.jump_input : (s.jump t).input = s.input := rfl
@[simp] theorem State.jump_consumed : (s.jump t).consumed = s.consumed := rfl
@[simp] theorem State.jump_outPort : (s.jump t).outPort = s.outPort := rfl
@[simp] theorem State.jump_output : (s.jump t).output = s.output := rfl
@[simp] theorem State.jump_host : (s.jump t).host = s.host := rfl
end

section
variable (v : Word)
@[simp] theorem State.setRb_config : (s.setRb v).config = s.config := rfl
@[simp] theorem State.setRb_ioMode : (s.setRb v).ioMode = s.ioMode := rfl
@[simp] theorem State.setRb_pc : (s.setRb v).pc = s.pc := rfl
@[simp] theorem State.setRb_rb : (s.setRb v).rb = v := rfl
@[simp] theorem State.setRb_runState : (s.setRb v).runState = s.runState := rfl
@[simp] theorem State.setRb_fault : (s.setRb v).fault = s.fault := rfl
@[simp] theorem State.setRb_loadedLength : (s.setRb v).loadedLength = s.loadedLength := rfl
@[simp] theorem State.setRb_mem : (s.setRb v).mem = s.mem := rfl
@[simp] theorem State.setRb_input : (s.setRb v).input = s.input := rfl
@[simp] theorem State.setRb_consumed : (s.setRb v).consumed = s.consumed := rfl
@[simp] theorem State.setRb_outPort : (s.setRb v).outPort = s.outPort := rfl
@[simp] theorem State.setRb_output : (s.setRb v).output = s.output := rfl
@[simp] theorem State.setRb_host : (s.setRb v).host = s.host := rfl
end

section
variable (m : Memory)
@[simp] theorem State.setMem_config : (s.setMem m).config = s.config := rfl
@[simp] theorem State.setMem_ioMode : (s.setMem m).ioMode = s.ioMode := rfl
@[simp] theorem State.setMem_pc : (s.setMem m).pc = s.pc := rfl
@[simp] theorem State.setMem_rb : (s.setMem m).rb = s.rb := rfl
@[simp] theorem State.setMem_runState : (s.setMem m).runState = s.runState := rfl
@[simp] theorem State.setMem_fault : (s.setMem m).fault = s.fault := rfl
@[simp] theorem State.setMem_loadedLength : (s.setMem m).loadedLength = s.loadedLength := rfl
@[simp] theorem State.setMem_mem : (s.setMem m).mem = m := rfl
@[simp] theorem State.setMem_input : (s.setMem m).input = s.input := rfl
@[simp] theorem State.setMem_consumed : (s.setMem m).consumed = s.consumed := rfl
@[simp] theorem State.setMem_outPort : (s.setMem m).outPort = s.outPort := rfl
@[simp] theorem State.setMem_output : (s.setMem m).output = s.output := rfl
@[simp] theorem State.setMem_host : (s.setMem m).host = s.host := rfl
end

section
variable (r : RunState)
@[simp] theorem State.halt_config : (s.halt r).config = s.config := rfl
@[simp] theorem State.halt_ioMode : (s.halt r).ioMode = s.ioMode := rfl
@[simp] theorem State.halt_pc : (s.halt r).pc = s.pc := rfl
@[simp] theorem State.halt_rb : (s.halt r).rb = s.rb := rfl
@[simp] theorem State.halt_runState : (s.halt r).runState = r := rfl
@[simp] theorem State.halt_fault : (s.halt r).fault = s.fault := rfl
@[simp] theorem State.halt_loadedLength : (s.halt r).loadedLength = s.loadedLength := rfl
@[simp] theorem State.halt_mem : (s.halt r).mem = s.mem := rfl
@[simp] theorem State.halt_input : (s.halt r).input = s.input := rfl
@[simp] theorem State.halt_consumed : (s.halt r).consumed = s.consumed := rfl
@[simp] theorem State.halt_outPort : (s.halt r).outPort = s.outPort := rfl
@[simp] theorem State.halt_output : (s.halt r).output = s.output := rfl
@[simp] theorem State.halt_host : (s.halt r).host = s.host := rfl
end

section
variable (e : FaultInfo)
@[simp] theorem State.enterFault_config : (s.enterFault e).config = s.config := rfl
@[simp] theorem State.enterFault_ioMode : (s.enterFault e).ioMode = s.ioMode := rfl
@[simp] theorem State.enterFault_pc : (s.enterFault e).pc = s.pc := rfl
@[simp] theorem State.enterFault_rb : (s.enterFault e).rb = s.rb := rfl
@[simp] theorem State.enterFault_runState : (s.enterFault e).runState = .haltedFault := rfl
@[simp] theorem State.enterFault_fault : (s.enterFault e).fault = { cause := e.cause, kind := e.kind, operand := e.operand, value := e.value, pc := s.pc } := rfl
@[simp] theorem State.enterFault_loadedLength : (s.enterFault e).loadedLength = s.loadedLength := rfl
@[simp] theorem State.enterFault_mem : (s.enterFault e).mem = s.mem := rfl
@[simp] theorem State.enterFault_input : (s.enterFault e).input = s.input := rfl
@[simp] theorem State.enterFault_consumed : (s.enterFault e).consumed = s.consumed := rfl
@[simp] theorem State.enterFault_outPort : (s.enterFault e).outPort = s.outPort := rfl
@[simp] theorem State.enterFault_output : (s.enterFault e).output = s.output := rfl
@[simp] theorem State.enterFault_host : (s.enterFault e).host = s.host := rfl
end

section
variable (p : InputPort)
@[simp] theorem State.setInput_config : (s.setInput p).config = s.config := rfl
@[simp] theorem State.setInput_ioMode : (s.setInput p).ioMode = s.ioMode := rfl
@[simp] theorem State.setInput_pc : (s.setInput p).pc = s.pc := rfl
@[simp] theorem State.setInput_rb : (s.setInput p).rb = s.rb := rfl
@[simp] theorem State.setInput_runState : (s.setInput p).runState = s.runState := rfl
@[simp] theorem State.setInput_fault : (s.setInput p).fault = s.fault := rfl
@[simp] theorem State.setInput_loadedLength : (s.setInput p).loadedLength = s.loadedLength := rfl
@[simp] theorem State.setInput_mem : (s.setInput p).mem = s.mem := rfl
@[simp] theorem State.setInput_input : (s.setInput p).input = p := rfl
@[simp] theorem State.setInput_consumed : (s.setInput p).consumed = s.consumed := rfl
@[simp] theorem State.setInput_outPort : (s.setInput p).outPort = s.outPort := rfl
@[simp] theorem State.setInput_output : (s.setInput p).output = s.output := rfl
@[simp] theorem State.setInput_host : (s.setInput p).host = s.host := rfl
end

section
variable (v : Word)
@[simp] theorem State.consume_config : (s.consume v).config = s.config := rfl
@[simp] theorem State.consume_ioMode : (s.consume v).ioMode = s.ioMode := rfl
@[simp] theorem State.consume_pc : (s.consume v).pc = s.pc := rfl
@[simp] theorem State.consume_rb : (s.consume v).rb = s.rb := rfl
@[simp] theorem State.consume_runState : (s.consume v).runState = s.runState := rfl
@[simp] theorem State.consume_fault : (s.consume v).fault = s.fault := rfl
@[simp] theorem State.consume_loadedLength : (s.consume v).loadedLength = s.loadedLength := rfl
@[simp] theorem State.consume_mem : (s.consume v).mem = s.mem := rfl
@[simp] theorem State.consume_input : (s.consume v).input = s.input := rfl
@[simp] theorem State.consume_consumed : (s.consume v).consumed = s.consumed ++ [v] := rfl
@[simp] theorem State.consume_outPort : (s.consume v).outPort = s.outPort := rfl
@[simp] theorem State.consume_output : (s.consume v).output = s.output := rfl
@[simp] theorem State.consume_host : (s.consume v).host = s.host := rfl
end

section
variable (p : OutputPort)
@[simp] theorem State.setOutPort_config : (s.setOutPort p).config = s.config := rfl
@[simp] theorem State.setOutPort_ioMode : (s.setOutPort p).ioMode = s.ioMode := rfl
@[simp] theorem State.setOutPort_pc : (s.setOutPort p).pc = s.pc := rfl
@[simp] theorem State.setOutPort_rb : (s.setOutPort p).rb = s.rb := rfl
@[simp] theorem State.setOutPort_runState : (s.setOutPort p).runState = s.runState := rfl
@[simp] theorem State.setOutPort_fault : (s.setOutPort p).fault = s.fault := rfl
@[simp] theorem State.setOutPort_loadedLength : (s.setOutPort p).loadedLength = s.loadedLength := rfl
@[simp] theorem State.setOutPort_mem : (s.setOutPort p).mem = s.mem := rfl
@[simp] theorem State.setOutPort_input : (s.setOutPort p).input = s.input := rfl
@[simp] theorem State.setOutPort_consumed : (s.setOutPort p).consumed = s.consumed := rfl
@[simp] theorem State.setOutPort_outPort : (s.setOutPort p).outPort = p := rfl
@[simp] theorem State.setOutPort_output : (s.setOutPort p).output = s.output := rfl
@[simp] theorem State.setOutPort_host : (s.setOutPort p).host = s.host := rfl
end

section
variable (v : Word)
@[simp] theorem State.emit_config : (s.emit v).config = s.config := rfl
@[simp] theorem State.emit_ioMode : (s.emit v).ioMode = s.ioMode := rfl
@[simp] theorem State.emit_pc : (s.emit v).pc = s.pc := rfl
@[simp] theorem State.emit_rb : (s.emit v).rb = s.rb := rfl
@[simp] theorem State.emit_runState : (s.emit v).runState = s.runState := rfl
@[simp] theorem State.emit_fault : (s.emit v).fault = s.fault := rfl
@[simp] theorem State.emit_loadedLength : (s.emit v).loadedLength = s.loadedLength := rfl
@[simp] theorem State.emit_mem : (s.emit v).mem = s.mem := rfl
@[simp] theorem State.emit_input : (s.emit v).input = s.input := rfl
@[simp] theorem State.emit_consumed : (s.emit v).consumed = s.consumed := rfl
@[simp] theorem State.emit_outPort : (s.emit v).outPort = s.outPort := rfl
@[simp] theorem State.emit_output : (s.emit v).output = s.output ++ [v] := rfl
@[simp] theorem State.emit_host : (s.emit v).host = s.host := rfl
end

section
variable (words : List Word)
@[simp] theorem State.load_config : (s.load words).config = s.config := rfl
@[simp] theorem State.load_ioMode : (s.load words).ioMode = s.ioMode := rfl
@[simp] theorem State.load_pc : (s.load words).pc = 0 := rfl
@[simp] theorem State.load_rb : (s.load words).rb = 0 := rfl
@[simp] theorem State.load_runState : (s.load words).runState = .loaded := rfl
@[simp] theorem State.load_fault : (s.load words).fault = FaultStatus.clear := rfl
@[simp] theorem State.load_loadedLength : (s.load words).loadedLength = words.length := rfl
@[simp] theorem State.load_mem : (s.load words).mem = Memory.ofWords 0 words := rfl
@[simp] theorem State.load_input : (s.load words).input = s.input := rfl
@[simp] theorem State.load_consumed : (s.load words).consumed = s.consumed := rfl
@[simp] theorem State.load_outPort : (s.load words).outPort = s.outPort := rfl
@[simp] theorem State.load_output : (s.load words).output = s.output := rfl
@[simp] theorem State.load_host : (s.load words).host = s.host := rfl
end

section
@[simp] theorem State.dropHost_config : (s.dropHost).config = s.config := rfl
@[simp] theorem State.dropHost_ioMode : (s.dropHost).ioMode = s.ioMode := rfl
@[simp] theorem State.dropHost_pc : (s.dropHost).pc = s.pc := rfl
@[simp] theorem State.dropHost_rb : (s.dropHost).rb = s.rb := rfl
@[simp] theorem State.dropHost_runState : (s.dropHost).runState = s.runState := rfl
@[simp] theorem State.dropHost_fault : (s.dropHost).fault = s.fault := rfl
@[simp] theorem State.dropHost_loadedLength : (s.dropHost).loadedLength = s.loadedLength := rfl
@[simp] theorem State.dropHost_mem : (s.dropHost).mem = s.mem := rfl
@[simp] theorem State.dropHost_input : (s.dropHost).input = s.input := rfl
@[simp] theorem State.dropHost_consumed : (s.dropHost).consumed = s.consumed := rfl
@[simp] theorem State.dropHost_outPort : (s.dropHost).outPort = s.outPort := rfl
@[simp] theorem State.dropHost_output : (s.dropHost).output = s.output := rfl
@[simp] theorem State.dropHost_host : (s.dropHost).host = s.host.tail := rfl
end

end Sys2Proof.Machine
end

