-- ==== Sys2Proof/Laws/Operands.lean ====
section
/-! SUPPORT. What the memory primitives and the operand resolver can answer, once each. -/

namespace Sys2Proof.Machine

variable {s : State} {i : Fin 4} {mode : Mode} {a v : Word} {e : FaultInfo} {kind : FaultKind}

theorem memRead_eq_ok_iff : memRead s kind i a = .ok v ↔ CellIs s a v := by
  unfold memRead CellIs
  split
  · rename_i h
    exact ⟨fun hv => ⟨h, Except.ok.inj hv⟩, fun hv => congrArg _ hv.2⟩
  · rename_i h; simp [show ¬ InBounds s.config.capacity a from h]

theorem memRead_eq_error_iff :
    memRead s kind i a = .error e ↔ ¬ InBounds s.config.capacity a ∧ e = memoryFault kind i a := by
  unfold memRead
  split <;> simp_all [eq_comm]

theorem memWrite_eq_ok_iff {m : Memory} :
    memWrite s i a v = .ok m ↔ InBounds s.config.capacity a ∧ m = s.mem.set (cellOf a) v := by
  unfold memWrite
  split
  · rename_i h
    exact ⟨fun hv => ⟨h, (Except.ok.inj hv).symm⟩, fun hv => congrArg _ hv.2.symm⟩
  · rename_i h; simp [show ¬ InBounds s.config.capacity a from h]

theorem memWrite_eq_error_iff :
    memWrite s i a v = .error e ↔ ¬ InBounds s.config.capacity a ∧ e = memoryFault .write i a := by
  unfold memWrite
  split <;> simp_all [eq_comm]

theorem fetchOperand_eq_ok_iff : fetchOperand s i = .ok v ↔ OperandIs s i v := memRead_eq_ok_iff

theorem fetchOperand_eq_error_iff :
    fetchOperand s i = .error e ↔
      ¬ InBounds s.config.capacity (operandAddress s i) ∧ e = memoryFault .operandFetch i (operandAddress s i) :=
  memRead_eq_error_iff

/-- A read operand resolves exactly when the spec says it is readable, to the value the spec says. -/
theorem source_eq_ok_iff : source s i mode = .ok v ↔ Reads s i mode v := by
  unfold source Reads
  cases hf : fetchOperand s i with
  | error e =>
    have hno : ∀ raw, ¬ OperandIs s i raw := fun raw h => by
      rw [fetchOperand_eq_ok_iff.mpr h] at hf; cases hf
    simp [hno]
  | ok raw =>
    have hraw := fetchOperand_eq_ok_iff.mp hf
    have huniq : ∀ raw', OperandIs s i raw' ↔ raw' = raw := fun raw' =>
      ⟨fun h => h.2.symm.trans hraw.2, fun h => h ▸ hraw⟩
    cases mode <;> simp [huniq, readOperand, memRead_eq_ok_iff, relativeAddress]

/-- A destination operand resolves exactly when its word is fetched, to the address the spec says. -/
theorem destination_eq_ok_iff : destination s i mode = .ok a ↔ Names s i mode a := by
  unfold destination Names
  cases hf : fetchOperand s i with
  | error e =>
    have hno : ∀ raw, ¬ OperandIs s i raw := fun raw h => by
      rw [fetchOperand_eq_ok_iff.mpr h] at hf; cases hf
    simp [hno]
  | ok raw =>
    have hraw := fetchOperand_eq_ok_iff.mp hf
    have huniq : ∀ raw', OperandIs s i raw' ↔ raw' = raw := fun raw' =>
      ⟨fun h => h.2.symm.trans hraw.2, fun h => h ▸ hraw⟩
    cases mode <;> simp [huniq, writeAddress, relativeAddress]

/-- A read operand raises exactly the fault the spec gives it. -/
theorem source_eq_error_iff : source s i mode = .error e ↔ SourceFaults s i mode e := by
  unfold source SourceFaults OperandFaults
  cases hf : fetchOperand s i with
  | error e' =>
    obtain ⟨hb, rfl⟩ := fetchOperand_eq_error_iff.mp hf
    have hno : ∀ raw, ¬ OperandIs s i raw := fun raw h => hb h.1
    have hb' : ¬ InBounds s.config.capacity (s.pc + BitVec.ofNat 64 i.val) := hb
    simp [hno, hb', memoryFault, operandAddress, eq_comm]
  | ok raw =>
    have hraw := fetchOperand_eq_ok_iff.mp hf
    have hin : ¬ ¬ InBounds s.config.capacity (s.pc + BitVec.ofNat 64 i.val) := fun h => h hraw.1
    have huniq : ∀ raw', OperandIs s i raw' ↔ raw' = raw := fun raw' =>
      ⟨fun h => h.2.symm.trans hraw.2, fun h => h ▸ hraw⟩
    simp only [hin, false_and, false_or, huniq, exists_eq_left]
    cases mode with
    | position => exact memRead_eq_error_iff
    | immediate => exact ⟨fun h => (by cases h), False.elim⟩
    | relative => exact memRead_eq_error_iff
    | unknown d => simp only [readOperand, unknownMode, Except.error.injEq, eq_comm]

/-- A destination operand raises only the fault of its operand word (30_encoding.md R68). -/
theorem destination_eq_error_iff : destination s i mode = .error e ↔ OperandFaults s i e := by
  unfold destination OperandFaults
  cases hf : fetchOperand s i with
  | error e' =>
    obtain ⟨hb, rfl⟩ := fetchOperand_eq_error_iff.mp hf
    have hb' : ¬ InBounds s.config.capacity (s.pc + BitVec.ofNat 64 i.val) := hb
    simp [hb', memoryFault, operandAddress, eq_comm]
  | ok raw =>
    have hraw := fetchOperand_eq_ok_iff.mp hf
    exact ⟨fun h => (by cases h), fun h => absurd hraw.1 h.1⟩

theorem twoSources_eq_ok_iff {m1 m2 : Mode} {a b : Word} :
    twoSources s m1 m2 = .ok (a, b) ↔ Reads s 1 m1 a ∧ Reads s 2 m2 b := by
  rw [← source_eq_ok_iff, ← source_eq_ok_iff]
  unfold twoSources
  cases source s 1 m1 <;> cases source s 2 m2 <;> simp

/-- Operand 1 faults first, and operand 2 only once operand 1 has been read (60_exceptions.md R206). -/
theorem twoSources_eq_error_iff {m1 m2 : Mode} :
    twoSources s m1 m2 = .error e ↔ SourceFaults s 1 m1 e ∨ ∃ a, Reads s 1 m1 a ∧ SourceFaults s 2 m2 e := by
  simp only [← source_eq_ok_iff, ← source_eq_error_iff]
  unfold twoSources
  cases source s 1 m1 <;> cases source s 2 m2 <;> simp

/-- A read operand is readable or faults. -/
theorem reads_or_faults (s : State) (i : Fin 4) (mode : Mode) :
    (∃ v, Reads s i mode v) ∨ ∃ e, SourceFaults s i mode e := by
  cases h : source s i mode with
  | ok v => exact .inl ⟨v, source_eq_ok_iff.mp h⟩
  | error e => exact .inr ⟨e, source_eq_error_iff.mp h⟩

theorem enterFault_eq_faulted (s : State) (e : FaultInfo) : s.enterFault e = faulted s e := rfl

end Sys2Proof.Machine
end

