-- ==== Sys2Proof/Laws/Exec.lean ====
section
/-! SUPPORT. What each instruction can answer, once each: its completion, and the cases of its next state. -/

namespace Sys2Proof.Machine

variable {s t : State} {m1 m2 m3 : Mode} {a b v dest : Word} {e : FaultInfo}

theorem finish_eq_next_iff {r : Except FaultInfo State} :
    finish s r = .next t ↔ r = .ok t ∨ ∃ e, r = .error e ∧ t = s.enterFault e := by
  cases r <;> simp [finish, eq_comm]

theorem finish_ne_fault (r : Except FaultInfo State) (f : Fault) : finish s r ≠ .fault f := by
  cases r <;> simp [finish]

theorem finish_ne_refused (r : Except FaultInfo State) (x : Refusal) : finish s r ≠ .refused x := by
  cases r <;> simp [finish]

/-- An `F3` instruction that completes: both reads, the destination, the ALU and the write succeed. -/
theorem resultF3_eq_ok_iff {f : Word → Word → Except FaultInfo Word} :
    resultF3 f m1 m2 m3 s = .ok t ↔
      ∃ a b dest v, Reads s 1 m1 a ∧ Reads s 2 m2 b ∧ Names s 3 m3 dest ∧ f a b = .ok v ∧
        InBounds s.config.capacity dest ∧ t = (s.setMem (s.mem.set (cellOf dest) v)).advance 4 := by
  constructor
  · intro h
    unfold resultF3 at h
    split at h
    · cases h
    · rename_i a b hab
      split at h
      · cases h
      · rename_i dest hdest
        split at h
        · cases h
        · rename_i v hv
          split at h
          · cases h
          · rename_i m hm
            obtain ⟨ha, hb⟩ := twoSources_eq_ok_iff.mp hab
            obtain ⟨hin, rfl⟩ := memWrite_eq_ok_iff.mp hm
            cases h
            exact ⟨a, b, dest, v, ha, hb, destination_eq_ok_iff.mp hdest, hv, hin, rfl⟩
  · rintro ⟨a, b, dest, v, ha, hb, hd, hv, hin, rfl⟩
    simp only [resultF3, twoSources_eq_ok_iff.mpr ⟨ha, hb⟩, destination_eq_ok_iff.mpr hd, hv,
      memWrite_eq_ok_iff.mpr ⟨hin, rfl⟩]

/-- Every way an `F3` instruction can fault, in the order of 60_exceptions.md R206. -/
theorem resultF3_eq_error_iff {f : Word → Word → Except FaultInfo Word} :
    resultF3 f m1 m2 m3 s = .error e ↔
      SourceFaults s 1 m1 e ∨ (∃ a, Reads s 1 m1 a ∧ SourceFaults s 2 m2 e) ∨
      ∃ a b, Reads s 1 m1 a ∧ Reads s 2 m2 b ∧
        (OperandFaults s 3 e ∨ ∃ dest, Names s 3 m3 dest ∧
          (f a b = .error e ∨ ∃ v, f a b = .ok v ∧ ¬ InBounds s.config.capacity dest ∧
            e = memoryFault .write 3 dest)) := by
  cases h12 : twoSources s m1 m2 with
  | error e' =>
    have hno : ¬ ∃ a b, Reads s 1 m1 a ∧ Reads s 2 m2 b ∧
        (OperandFaults s 3 e ∨ ∃ dest, Names s 3 m3 dest ∧
          (f a b = .error e ∨ ∃ v, f a b = .ok v ∧ ¬ InBounds s.config.capacity dest ∧
            e = memoryFault .write 3 dest)) := by
      rintro ⟨a, b, ha, hb, -⟩
      rw [twoSources_eq_ok_iff.mpr ⟨ha, hb⟩] at h12
      cases h12
    rw [← or_assoc, ← twoSources_eq_error_iff, or_iff_left hno]
    simp only [resultF3, h12, Except.error.injEq]
  | ok ab =>
    obtain ⟨a, b⟩ := ab
    obtain ⟨ha, hb⟩ := twoSources_eq_ok_iff.mp h12
    have hno : ¬ (SourceFaults s 1 m1 e ∨ ∃ a, Reads s 1 m1 a ∧ SourceFaults s 2 m2 e) := by
      rw [← twoSources_eq_error_iff, h12]
      simp
    rw [← or_assoc, or_iff_right hno]
    have huniq : ∀ a' b', Reads s 1 m1 a' → Reads s 2 m2 b' → a' = a ∧ b' = b := fun a' b' ha' hb' => by
      have := twoSources_eq_ok_iff.mpr ⟨ha', hb'⟩
      rw [h12] at this
      cases this
      exact ⟨rfl, rfl⟩
    cases h3 : destination s 3 m3 with
    | error e' =>
      have hno3 : ∀ d, ¬ Names s 3 m3 d := fun d hd => by
        rw [destination_eq_ok_iff.mpr hd] at h3
        cases h3
      simp only [resultF3, h12, h3, hno3, false_and, exists_false, or_false]
      rw [← destination_eq_error_iff (mode := m3), h3]
      simp only [Except.error.injEq]
      exact ⟨fun h => ⟨a, b, ha, hb, h⟩, fun ⟨_, _, _, _, h⟩ => h⟩
    | ok dest =>
      have hd := destination_eq_ok_iff.mp h3
      have hnf : ¬ OperandFaults s 3 e := by
        rw [← destination_eq_error_iff (mode := m3), h3]
        simp
      have hduniq : ∀ d, Names s 3 m3 d → d = dest := fun d hd' => by
        have := destination_eq_ok_iff.mpr hd'
        rw [h3] at this
        cases this
        rfl
      simp only [hnf, false_or]
      constructor
      · intro h
        refine ⟨a, b, ha, hb, dest, hd, ?_⟩
        simp only [resultF3, h12, h3] at h
        split at h
        · cases h; exact .inl ‹_›
        · rename_i v hv
          split at h
          · rename_i hm
            cases h
            exact .inr ⟨v, hv, memWrite_eq_error_iff.mp hm⟩
          · cases h
      · rintro ⟨a', b', ha', hb', d, hd', hcase⟩
        obtain ⟨rfl, rfl⟩ := huniq a' b' ha' hb'
        obtain rfl := hduniq d hd'
        rcases hcase with hf | ⟨v, hv, hout⟩
        · simp only [resultF3, h12, h3, hf]
        · simp only [resultF3, h12, h3, hv, memWrite_eq_error_iff.mpr hout]

theorem resultJump_eq_ok_iff {taken : Word → Bool} :
    resultJump taken m1 m2 s = .ok t ↔
      ∃ a b, Reads s 1 m1 a ∧ Reads s 2 m2 b ∧ t = if taken a then s.jump b else s.advance 3 := by
  constructor
  · intro h
    unfold resultJump at h
    split at h
    · cases h
    · rename_i a b hab
      obtain ⟨ha, hb⟩ := twoSources_eq_ok_iff.mp hab
      cases h
      exact ⟨a, b, ha, hb, rfl⟩
  · rintro ⟨a, b, ha, hb, rfl⟩
    simp only [resultJump, twoSources_eq_ok_iff.mpr ⟨ha, hb⟩]

theorem resultJump_eq_error_iff {taken : Word → Bool} :
    resultJump taken m1 m2 s = .error e ↔
      SourceFaults s 1 m1 e ∨ ∃ a, Reads s 1 m1 a ∧ SourceFaults s 2 m2 e := by
  rw [← twoSources_eq_error_iff]
  unfold resultJump
  cases twoSources s m1 m2 <;> simp

theorem resultArb_eq_ok_iff :
    resultArb m1 s = .ok t ↔ ∃ a, Reads s 1 m1 a ∧ t = (s.setRb (s.rb + a)).advance 2 := by
  constructor
  · intro h
    unfold resultArb at h
    split at h
    · cases h
    · rename_i a ha
      cases h
      exact ⟨a, source_eq_ok_iff.mp ha, rfl⟩
  · rintro ⟨a, ha, rfl⟩
    simp only [resultArb, source_eq_ok_iff.mpr ha]

theorem resultArb_eq_error_iff : resultArb m1 s = .error e ↔ SourceFaults s 1 m1 e := by
  rw [← source_eq_error_iff]
  unfold resultArb
  cases source s 1 m1 <;> simp

/-- What IN does once the port has delivered a word. -/
theorem storeInput_cases :
    (InBounds s.config.capacity dest ∧
      storeInput dest v s = .next (((s.consume v).setMem (s.mem.set (cellOf dest) v)).advance 2)) ∨
    (¬ InBounds s.config.capacity dest ∧
      storeInput dest v s = .next ((s.consume v).enterFault (memoryFault .write 1 dest))) := by
  by_cases h : InBounds s.config.capacity dest
  · refine .inl ⟨h, ?_⟩
    have hw : memWrite (s.consume v) 1 dest v = .ok (s.mem.set (cellOf dest) v) :=
      memWrite_eq_ok_iff.mpr ⟨h, rfl⟩
    simp only [storeInput, hw]
  · refine .inr ⟨h, ?_⟩
    have hw : memWrite (s.consume v) 1 dest v = .error (memoryFault .write 1 dest) :=
      memWrite_eq_error_iff.mpr ⟨h, rfl⟩
    simp only [storeInput, hw]

/-- Every next state of IN (42_io.md R126). -/
theorem execIn_next_cases (h : execIn m1 s = .next t) :
    (∃ e, OperandFaults s 1 e ∧ t = s.enterFault e) ∨
    ∃ dest, Names s 1 m1 dest ∧
      ((∃ p, s.input.request s.ioMode s.config.eofSentinel = some (.fault, p) ∧
          t = (s.setInput p).enterFault (ioFault .input)) ∨
       (∃ v p, s.input.request s.ioMode s.config.eofSentinel = some (.value v, p) ∧
          InBounds s.config.capacity dest ∧
          t = (((s.setInput p).consume v).setMem (s.mem.set (cellOf dest) v)).advance 2) ∨
       (∃ v p, s.input.request s.ioMode s.config.eofSentinel = some (.value v, p) ∧
          ¬ InBounds s.config.capacity dest ∧
          t = ((s.setInput p).consume v).enterFault (memoryFault .write 1 dest))) := by
  unfold execIn at h
  split at h
  · cases h; exact .inl ⟨_, destination_eq_error_iff.mp ‹_›, rfl⟩
  · rename_i dest hd
    refine .inr ⟨dest, destination_eq_ok_iff.mp hd, ?_⟩
    split at h
    · cases h
    · cases h; exact .inl ⟨_, ‹_›, rfl⟩
    · rename_i v p hp
      rcases storeInput_cases (s := s.setInput p) (dest := dest) (v := v) with ⟨hin, hs⟩ | ⟨hout, hs⟩
      · rw [hs] at h; cases h; exact .inr (.inl ⟨v, p, hp, hin, rfl⟩)
      · rw [hs] at h; cases h; exact .inr (.inr ⟨v, p, hp, hout, rfl⟩)

/-- IN stops only to wait for an answer (R125). -/
theorem execIn_eq_fault_iff {f : Fault} :
    execIn m1 s = .fault f ↔
      (∃ dest, Names s 1 m1 dest) ∧ s.input.request s.ioMode s.config.eofSentinel = none ∧ f = .inputWait := by
  constructor
  · intro h
    unfold execIn at h
    split at h
    · cases h
    · rename_i dest hd
      split at h
      · cases h; exact ⟨⟨dest, destination_eq_ok_iff.mp hd⟩, ‹_›, rfl⟩
      · cases h
      · rename_i v p hp
        rcases storeInput_cases (s := s.setInput p) (dest := dest) (v := v) with ⟨_, hs⟩ | ⟨_, hs⟩ <;>
          rw [hs] at h <;> cases h
  · rintro ⟨⟨dest, hd⟩, hp, rfl⟩
    simp only [execIn, destination_eq_ok_iff.mpr hd, hp]

theorem execIn_ne_refused (x : Refusal) : execIn m1 s ≠ .refused x := by
  intro h
  unfold execIn at h
  split at h
  · cases h
  · rename_i dest hd
    split at h
    · cases h
    · cases h
    · rename_i v p hp
      rcases storeInput_cases (s := s.setInput p) (dest := dest) (v := v) with ⟨_, hs⟩ | ⟨_, hs⟩ <;>
        rw [hs] at h <;> cases h

/-- Every next state of OUT (R127). -/
theorem execOut_next_cases (h : execOut m1 s = .next t) :
    (∃ e, SourceFaults s 1 m1 e ∧ t = s.enterFault e) ∨
    ∃ a, Reads s 1 m1 a ∧
      ((∃ p, s.outPort.request = some (.fault, p) ∧ t = (s.setOutPort p).enterFault (ioFault .output)) ∨
       (∃ p, s.outPort.request = some (.ok, p) ∧ t = ((s.setOutPort p).emit a).advance 2)) := by
  unfold execOut at h
  split at h
  · cases h; exact .inl ⟨_, source_eq_error_iff.mp ‹_›, rfl⟩
  · rename_i a ha
    refine .inr ⟨a, source_eq_ok_iff.mp ha, ?_⟩
    split at h
    · cases h
    · cases h; exact .inl ⟨_, ‹_›, rfl⟩
    · cases h; exact .inr ⟨_, ‹_›, rfl⟩

/-- OUT stops only to wait for an answer (R125). -/
theorem execOut_eq_fault_iff {f : Fault} :
    execOut m1 s = .fault f ↔ (∃ a, Reads s 1 m1 a) ∧ s.outPort.request = none ∧ f = .outputWait := by
  constructor
  · intro h
    unfold execOut at h
    split at h
    · cases h
    · rename_i a ha
      split at h
      · cases h; exact ⟨⟨a, source_eq_ok_iff.mp ha⟩, ‹_›, rfl⟩
      · cases h
      · cases h
  · rintro ⟨⟨a, ha⟩, hp, rfl⟩
    simp only [execOut, source_eq_ok_iff.mpr ha, hp]

theorem execOut_ne_refused (x : Refusal) : execOut m1 s ≠ .refused x := by
  intro h
  unfold execOut at h
  split at h
  · cases h
  · split at h <;> cases h

end Sys2Proof.Machine
end

