-- ==== Sys2Proof/Laws/Dispatch.lean ====
section
/-! SUPPORT. What an instruction's next state can be, over all instructions. -/

namespace Sys2Proof.Machine

variable {s t : State} {i : Instr} {m1 m2 m3 : Mode}

theorem sourceFaults_cause_ne_none {k : Fin 4} {m : Mode} {e : FaultInfo} (h : SourceFaults s k m e) :
    e.cause ≠ .none := by
  rcases h with ⟨_, rfl⟩ | ⟨raw, _, h⟩
  · simp
  · cases m <;> simp at h
    · obtain ⟨_, rfl⟩ := h; simp
    · obtain ⟨_, rfl⟩ := h; simp
    · subst h; simp

theorem narrow_error {policy : OverflowPolicy} {r : Int} {e : FaultInfo} (h : narrow policy r = .error e) :
    e = arithmeticOverflow := by
  unfold narrow at h
  split at h
  · cases h
  · cases policy <;> cases h; rfl

/-- The next states of the `F3` instructions (41_alu.md R101): a fault with a cause, or the store. -/
theorem resultF3_next_cases {f : Word → Word → Except FaultInfo Word}
    (hf : ∀ a b e, f a b = .error e → e = arithmeticOverflow) (h : finish s (resultF3 f m1 m2 m3 s) = .next t) :
    (∃ e, e.cause ≠ .none ∧ t = s.enterFault e) ∨
    (∃ v dest, Names s 3 m3 dest ∧ InBounds s.config.capacity dest ∧
      t = (s.setMem (s.mem.set (cellOf dest) v)).advance 4) := by
  rcases finish_eq_next_iff.mp h with h | ⟨e, hx, rfl⟩
  · obtain ⟨a, b, dest, v, _, _, hd, _, hin, rfl⟩ := resultF3_eq_ok_iff.mp h
    exact .inr ⟨v, dest, hd, hin, rfl⟩
  · refine .inl ⟨e, ?_, rfl⟩
    rcases resultF3_eq_error_iff.mp hx with h | ⟨_, _, h⟩ | ⟨a, b, _, _, ⟨_, rfl⟩ | ⟨d, _, h | ⟨v, _, _, rfl⟩⟩⟩
    · exact sourceFaults_cause_ne_none h
    · exact sourceFaults_cause_ne_none h
    · simp
    · rw [hf _ _ _ h]; simp [arithmeticOverflow]
    · simp [memoryFault]

/-- The next states of `exec` (46_dispatch.md R174): a fault, a store, IN, OUT (`execIn_next_cases` and
`execOut_next_cases` say what theirs can be), a jump, ARB, HALT, a no-op. -/
theorem exec_next_cases (h : exec i s = .next t) :
    (∃ e, (∀ m, i ≠ .inp m) ∧ (∀ m, i ≠ .out m) ∧ e.cause ≠ .none ∧ t = s.enterFault e) ∨
    (∃ m1 m2 m3 v dest, IsF3 i m1 m2 m3 ∧ Names s 3 m3 dest ∧ InBounds s.config.capacity dest ∧
      t = (s.setMem (s.mem.set (cellOf dest) v)).advance 4) ∨
    (∃ m, i = .inp m ∧ execIn m s = .next t) ∨ (∃ m, i = .out m ∧ execOut m s = .next t) ∨
    (∃ m1 m2 b, (i = .jit m1 m2 ∨ i = .jif m1 m2) ∧ (t = s.jump b ∨ t = s.advance 3)) ∨
    (∃ m a, i = .arb m ∧ t = (s.setRb (s.rb + a)).advance 2) ∨
    (i = .halt ∧ t = s.halt .haltedNormal) ∨ (∃ op, i = .unrecognized op ∧ t = s.advance 1) := by
  cases i with
  | add m1 m2 m3 =>
    have hi : IsF3 (.add m1 m2 m3) m1 m2 m3 := .inl rfl
    rcases resultF3_next_cases (fun _ _ _ h => narrow_error h) h with ⟨e, he, rfl⟩ | ⟨v, d, h1, h2, h3⟩
    · exact .inl ⟨e, by simp, by simp, he, rfl⟩
    · exact .inr (.inl ⟨m1, m2, m3, v, d, hi, h1, h2, h3⟩)
  | mul m1 m2 m3 =>
    have hi : IsF3 (.mul m1 m2 m3) m1 m2 m3 := .inr (.inl rfl)
    rcases resultF3_next_cases (fun _ _ _ h => narrow_error h) h with ⟨e, he, rfl⟩ | ⟨v, d, h1, h2, h3⟩
    · exact .inl ⟨e, by simp, by simp, he, rfl⟩
    · exact .inr (.inl ⟨m1, m2, m3, v, d, hi, h1, h2, h3⟩)
  | lt m1 m2 m3 =>
    have hi : IsF3 (.lt m1 m2 m3) m1 m2 m3 := .inr (.inr (.inl rfl))
    rcases resultF3_next_cases (fun _ _ _ h => by cases h) h with ⟨e, he, rfl⟩ | ⟨v, d, h1, h2, h3⟩
    · exact .inl ⟨e, by simp, by simp, he, rfl⟩
    · exact .inr (.inl ⟨m1, m2, m3, v, d, hi, h1, h2, h3⟩)
  | eq m1 m2 m3 =>
    have hi : IsF3 (.eq m1 m2 m3) m1 m2 m3 := .inr (.inr (.inr rfl))
    rcases resultF3_next_cases (fun _ _ _ h => by cases h) h with ⟨e, he, rfl⟩ | ⟨v, d, h1, h2, h3⟩
    · exact .inl ⟨e, by simp, by simp, he, rfl⟩
    · exact .inr (.inl ⟨m1, m2, m3, v, d, hi, h1, h2, h3⟩)
  | inp m => exact .inr (.inr (.inl ⟨m, rfl, h⟩))
  | out m => exact .inr (.inr (.inr (.inl ⟨m, rfl, h⟩)))
  | jit m1 m2 =>
    rcases finish_eq_next_iff.mp h with h | ⟨e, hx, rfl⟩
    · obtain ⟨a, b, _, _, rfl⟩ := resultJump_eq_ok_iff.mp h
      exact .inr (.inr (.inr (.inr (.inl ⟨m1, m2, b, .inl rfl, by split <;> simp⟩))))
    · refine .inl ⟨e, by simp, by simp, ?_, rfl⟩
      rcases resultJump_eq_error_iff.mp hx with h | ⟨_, _, h⟩ <;> exact sourceFaults_cause_ne_none h
  | jif m1 m2 =>
    rcases finish_eq_next_iff.mp h with h | ⟨e, hx, rfl⟩
    · obtain ⟨a, b, _, _, rfl⟩ := resultJump_eq_ok_iff.mp h
      exact .inr (.inr (.inr (.inr (.inl ⟨m1, m2, b, .inr rfl, by split <;> simp⟩))))
    · refine .inl ⟨e, by simp, by simp, ?_, rfl⟩
      rcases resultJump_eq_error_iff.mp hx with h | ⟨_, _, h⟩ <;> exact sourceFaults_cause_ne_none h
  | arb m =>
    rcases finish_eq_next_iff.mp h with h | ⟨e, hx, rfl⟩
    · obtain ⟨a, _, rfl⟩ := resultArb_eq_ok_iff.mp h
      exact .inr (.inr (.inr (.inr (.inr (.inl ⟨m, a, rfl, rfl⟩)))))
    · exact .inl ⟨e, by simp, by simp, sourceFaults_cause_ne_none (resultArb_eq_error_iff.mp hx), rfl⟩
  | halt => cases h; exact .inr (.inr (.inr (.inr (.inr (.inr (.inl ⟨rfl, rfl⟩))))))
  | unrecognized op => cases h; exact .inr (.inr (.inr (.inr (.inr (.inr (.inr ⟨op, rfl, rfl⟩))))))

end Sys2Proof.Machine
end

