-- ==== Sys2Proof/Laws/Image.lean ====
section
/-! SUPPORT. The memory-image format: how many words an image has, and what a little-endian value is made of. -/

namespace Sys2Proof.Machine

/-- Eight little-endian bytes are below `2^64`, and in general `n` bytes below `256^n`. -/
theorem littleEndian_lt (bs : List Byte) : littleEndian bs < 256 ^ bs.length := by
  induction bs with
  | nil => simp [littleEndian]
  | cons b bs ih =>
    have hb := b.isLt
    simp only [littleEndian, List.length_cons, Nat.pow_succ]
    omega

/-- Byte `j` of a little-endian value is the byte it was made of. -/
theorem littleEndian_byte (bs : List Byte) (j : Nat) :
    littleEndian bs / 256 ^ j % 256 = (bs.getD j 0).toNat := by
  induction bs generalizing j with
  | nil => simp [littleEndian]
  | cons b bs ih =>
    have hb := b.isLt
    cases j with
    | zero => simp [littleEndian]; omega
    | succ j =>
      have hdiv : littleEndian (b :: bs) / 256 = littleEndian bs := by simp [littleEndian]; omega
      rw [Nat.pow_succ', ← Nat.div_div_eq_div_mul, hdiv]
      simpa using ih j

theorem imageWords_length (bytes : List Byte) : (imageWords bytes).length = bytes.length / 8 := by
  simp [imageWords]

theorem imageWords_getD {bytes : List Byte} {k : Nat} (hk : k < bytes.length / 8) :
    (imageWords bytes).getD k 0 = BitVec.ofNat 64 (imageValue bytes k) := by
  simp [imageWords, List.getD_eq_getElem?_getD, hk]

end Sys2Proof.Machine
end

