-- ==== Sys2Proof/Laws/Memory.lean ====
section
/-! SUPPORT. The laws of the memory operations: read after write, the canonical form, bounds, images. -/

namespace Sys2Proof.Machine

theorem Memory.get_cons_self (a : Nat) (v : Word) (m : Memory) (h : m.get a = Memory.unlisted) :
    (Memory.cons a v m).get a = v := by
  unfold Memory.cons
  split
  · rename_i hv; rw [h, hv]
  · simp [Memory.get]

theorem Memory.get_cons_of_ne {a b : Nat} (v : Word) (m : Memory) (h : a ≠ b) :
    (Memory.cons a v m).get b = m.get b := by
  unfold Memory.cons
  split
  · rfl
  · simp [Memory.get, h]

theorem Memory.wfFrom_mono {lo lo' : Nat} {m : Memory} (h : lo' ≤ lo) (hm : m.wfFrom lo = true) :
    m.wfFrom lo' = true := by
  cases m with
  | nil => rfl
  | cons c m =>
    simp only [Memory.wfFrom, Bool.and_eq_true, decide_eq_true_eq] at hm ⊢
    exact ⟨⟨by omega, hm.1.2⟩, hm.2⟩

theorem Memory.wfFrom_cons {lo a : Nat} (v : Word) {m : Memory} (h : lo ≤ a) (hm : m.wfFrom (a + 1) = true) :
    (Memory.cons a v m).wfFrom lo = true := by
  unfold Memory.cons
  split
  · exact Memory.wfFrom_mono (by omega) hm
  · simp_all [Memory.wfFrom]

/-- An address below every listed one is not listed. -/
theorem Memory.get_of_lt {lo a : Nat} {m : Memory} (hm : m.wfFrom lo = true) (h : a < lo) :
    m.get a = Memory.unlisted := by
  induction m generalizing lo with
  | nil => rfl
  | cons c m ih =>
    simp only [Memory.wfFrom, Bool.and_eq_true, decide_eq_true_eq] at hm
    simp only [Memory.get, if_neg (show c.1 ≠ a by omega)]
    exact ih hm.2 (by omega)

/-- A write keeps the canonical form. -/
theorem Memory.wfFrom_set {lo a : Nat} (v : Word) {m : Memory} (h : lo ≤ a) (hm : m.wfFrom lo = true) :
    (m.set a v).wfFrom lo = true := by
  induction m generalizing lo with
  | nil => exact Memory.wfFrom_cons v h rfl
  | cons c m ih =>
    have hc := hm
    simp only [Memory.wfFrom, Bool.and_eq_true, decide_eq_true_eq] at hm
    simp only [Memory.set]
    split
    · refine Memory.wfFrom_cons v h ?_
      simp only [Memory.wfFrom, Bool.and_eq_true, decide_eq_true_eq]
      exact ⟨⟨by omega, hm.1.2⟩, hm.2⟩
    · split
      · rename_i hab
        exact Memory.wfFrom_cons v h (hab ▸ hm.2)
      · simp only [Memory.wfFrom, Bool.and_eq_true, decide_eq_true_eq]
        exact ⟨hm.1, ih (by omega) hm.2⟩

theorem Memory.wf_set {m : Memory} (a : Nat) (v : Word) (hm : m.wf = true) : (m.set a v).wf = true :=
  Memory.wfFrom_set v (Nat.zero_le a) hm

/-- A cell reads the word last written to it (20_memory.md R51). -/
theorem Memory.get_set_self {m : Memory} (a : Nat) (v : Word) (hm : m.wf = true) : (m.set a v).get a = v := by
  suffices h : ∀ lo, m.wfFrom lo = true → (m.set a v).get a = v from h 0 hm
  intro lo hlo
  induction m generalizing lo with
  | nil => exact Memory.get_cons_self a v [] rfl
  | cons c m ih =>
    have hc := hlo
    simp only [Memory.wfFrom, Bool.and_eq_true, decide_eq_true_eq] at hlo
    simp only [Memory.set]
    split
    · refine Memory.get_cons_self a v _ ?_
      simp only [Memory.get, if_neg (show c.1 ≠ a by omega)]
      exact Memory.get_of_lt hlo.2 (by omega)
    · split
      · rename_i hab
        exact Memory.get_cons_self a v m (Memory.get_of_lt hlo.2 (by omega))
      · rename_i hlt hne
        simp only [Memory.get, if_neg (fun h => hne h.symm : c.1 ≠ a)]
        exact ih (Memory.wfFrom_mono (Nat.zero_le _) hlo.2) _ hlo.2

/-- A write changes no other cell (R42). -/
theorem Memory.get_set_of_ne {a b : Nat} (m : Memory) (v : Word) (h : a ≠ b) : (m.set a v).get b = m.get b := by
  induction m with
  | nil => exact Memory.get_cons_of_ne v [] h
  | cons c m ih =>
    simp only [Memory.set]
    split
    · exact Memory.get_cons_of_ne v _ h
    · split
      · rename_i hab
        rw [Memory.get_cons_of_ne v m h, Memory.get, if_neg (hab ▸ h)]
      · simp only [Memory.get, ih]

theorem Memory.within_cons {n a : Nat} (v : Word) {m : Memory} (h : a < n) (hm : m.within n = true) :
    (Memory.cons a v m).within n = true := by
  unfold Memory.cons
  split
  · exact hm
  · simp [Memory.within, h, hm]

/-- A write to an address in bounds keeps every listed address in bounds. -/
theorem Memory.within_set {n a : Nat} (v : Word) {m : Memory} (h : a < n) (hm : m.within n = true) :
    (m.set a v).within n = true := by
  induction m with
  | nil => exact Memory.within_cons v h rfl
  | cons c m ih =>
    have hc := hm
    simp only [Memory.within, Bool.and_eq_true] at hm
    simp only [Memory.set]
    split
    · exact Memory.within_cons v h hc
    · split
      · exact Memory.within_cons v h hm.2
      · simp only [Memory.within, Bool.and_eq_true]
        exact ⟨hm.1, ih hm.2⟩

/-- Equal reads at every address make equal memories: what the canonical form is for. -/
theorem Memory.ext_get {m m' : Memory} (hm : m.wf = true) (hm' : m'.wf = true) (h : ∀ a, m.get a = m'.get a) :
    m = m' := by
  suffices hs : ∀ lo, m.wfFrom lo = true → m'.wfFrom lo = true → m = m' from hs 0 hm hm'
  intro lo hlo hlo'
  induction m generalizing lo m' with
  | nil =>
    cases m' with
    | nil => rfl
    | cons c' m' =>
      simp only [Memory.wfFrom, Bool.and_eq_true, decide_eq_true_eq] at hlo'
      exact absurd (by simpa [Memory.get] using (h c'.1).symm) hlo'.1.2
  | cons c m ih =>
    obtain ⟨a, u⟩ := c
    cases m' with
    | nil =>
      simp only [Memory.wfFrom, Bool.and_eq_true, decide_eq_true_eq] at hlo
      exact absurd (by simpa [Memory.get] using h a) hlo.1.2
    | cons c' m' =>
      obtain ⟨b, u'⟩ := c'
      simp only [Memory.wfFrom, Bool.and_eq_true, decide_eq_true_eq] at hlo hlo'
      have hab : a = b := by
        rcases Nat.lt_trichotomy a b with hlt | heq | hgt
        · have := h a
          simp only [Memory.get, if_true, if_neg (show b ≠ a by omega)] at this
          rw [Memory.get_of_lt hlo'.2 (by omega)] at this
          exact absurd this hlo.1.2
        · exact heq
        · have := h b
          simp only [Memory.get, if_true, if_neg (show a ≠ b by omega)] at this
          rw [Memory.get_of_lt hlo.2 (by omega)] at this
          exact absurd this.symm hlo'.1.2
      subst hab
      have hu : u = u' := by simpa [Memory.get] using h a
      have htail : ∀ k, Memory.get m k = Memory.get m' k := by
        intro k
        by_cases hk : a = k
        · rw [Memory.get_of_lt hlo.2 (by omega), Memory.get_of_lt hlo'.2 (by omega)]
        · simpa [Memory.get, hk] using h k
      rw [hu, ih (Memory.wfFrom_mono (Nat.zero_le _) hlo.2) (Memory.wfFrom_mono (Nat.zero_le _) hlo'.2)
        htail _ hlo.2 hlo'.2]

theorem Memory.wfFrom_ofWords (a : Nat) (ws : List Word) : (Memory.ofWords a ws).wfFrom a = true := by
  induction ws generalizing a with
  | nil => rfl
  | cons v ws ih => exact Memory.wfFrom_cons v (Nat.le_refl a) (ih (a + 1))

/-- A loaded image has the canonical form. -/
theorem Memory.wf_ofWords (ws : List Word) : (Memory.ofWords 0 ws).wf = true := Memory.wfFrom_ofWords 0 ws

/-- A loaded image reads as its words, and 0 above them (70_reset_and_hazards.md R230). -/
theorem Memory.get_ofWords (a k : Nat) (ws : List Word) : (Memory.ofWords a ws).get (a + k) = ws.getD k 0 := by
  induction ws generalizing a k with
  | nil => simp [Memory.ofWords, Memory.get, Memory.unlisted]
  | cons v ws ih =>
    cases k with
    | zero =>
      simpa [Memory.ofWords] using
        Memory.get_cons_self a v _ (Memory.get_of_lt (Memory.wfFrom_ofWords (a + 1) ws) (by omega))
    | succ k =>
      rw [Memory.ofWords, Memory.get_cons_of_ne v _ (by omega), show a + (k + 1) = a + 1 + k by omega, ih]
      rfl

/-- A loaded image of `n` words lists only addresses below `n`. -/
theorem Memory.within_ofWords (a n : Nat) (ws : List Word) (h : a + ws.length ≤ n) :
    (Memory.ofWords a ws).within n = true := by
  induction ws generalizing a with
  | nil => rfl
  | cons v ws ih =>
    simp only [List.length_cons] at h
    exact Memory.within_cons v (by omega) (ih (a + 1) (by omega))

theorem Memory.wf_placeWords (c nbits w n k a : Nat) (m : Memory) (hm : m.wf = true) :
    (Memory.placeWords c nbits w n k a m).wf = true := by
  induction n generalizing k a m with
  | zero => exact hm
  | succ n ih =>
    simp only [Memory.placeWords]
    split
    · exact ih _ _ _ (Memory.wf_set a _ hm)
    · exact ih _ _ _ hm

theorem Memory.wf_reset : State.reset.mem.wf = true := rfl

end Sys2Proof.Machine
end

