-- ==== Sys2Proof/Laws/PerInstr.lean ====
section
/-! SUPPORT. Statements made per instruction. `OpcodeDigits`: the low two decimal digits of an encoded
instruction are its opcode (30_encoding.md R60, R61). -/

namespace Sys2Proof.Laws.OpcodeDigits

/-- The low two digits of the encoded value of a well-formed instruction are its opcode. -/
def Statement (i : Instr) : Prop := i.WellFormed → i.encodeValue.tmod 100 = i.opcode

/-- Three modes, whatever digits they are, leave the low two digits alone. -/
theorem digits_above_opcode {op : Int} (h0 : 0 ≤ op) (h1 : op < 100) {d1 d2 d3 : Int} (p1 : 0 ≤ d1)
    (p2 : 0 ≤ d2) (p3 : 0 ≤ d3) : (op + 100 * d1 + 1000 * d2 + 10000 * d3).tmod 100 = op := by
  rw [Int.tmod_eq_emod_of_nonneg (by omega)]
  omega

theorem of_three {m1 m2 m3 : Mode} (h : (m1.wf && m2.wf && m3.wf) = true) {op : Int} (h0 : 0 ≤ op)
    (h1 : op < 100) : (op + 100 * m1.digit + 1000 * m2.digit + 10000 * m3.digit).tmod 100 = op := by
  simp only [Bool.and_eq_true] at h
  exact digits_above_opcode h0 h1 (Mode.digit_bounds h.1.1).1 (Mode.digit_bounds h.1.2).1 (Mode.digit_bounds h.2).1

theorem of_two {m1 m2 : Mode} (h : (m1.wf && m2.wf) = true) {op : Int} (h0 : 0 ≤ op) (h1 : op < 100) :
    (op + 100 * m1.digit + 1000 * m2.digit).tmod 100 = op := by
  simp only [Bool.and_eq_true] at h
  simpa using digits_above_opcode h0 h1 (Mode.digit_bounds h.1).1 (Mode.digit_bounds h.2).1 (Int.le_refl 0)

theorem of_one {m1 : Mode} (h : m1.wf = true) {op : Int} (h0 : 0 ≤ op) (h1 : op < 100) :
    (op + 100 * m1.digit).tmod 100 = op := by
  simpa using digits_above_opcode h0 h1 (Mode.digit_bounds h).1 (Int.le_refl 0) (Int.le_refl 0)

theorem add (m1 m2 m3 : Mode) : Statement (.add m1 m2 m3) := fun h => of_three h (by decide) (by decide)
theorem mul (m1 m2 m3 : Mode) : Statement (.mul m1 m2 m3) := fun h => of_three h (by decide) (by decide)
theorem inp (m1 : Mode) : Statement (.inp m1) := fun h => of_one h (by decide) (by decide)
theorem out (m1 : Mode) : Statement (.out m1) := fun h => of_one h (by decide) (by decide)
theorem jit (m1 m2 : Mode) : Statement (.jit m1 m2) := fun h => of_two h (by decide) (by decide)
theorem jif (m1 m2 : Mode) : Statement (.jif m1 m2) := fun h => of_two h (by decide) (by decide)
theorem lt (m1 m2 m3 : Mode) : Statement (.lt m1 m2 m3) := fun h => of_three h (by decide) (by decide)
theorem eq (m1 m2 m3 : Mode) : Statement (.eq m1 m2 m3) := fun h => of_three h (by decide) (by decide)
theorem arb (m1 : Mode) : Statement (.arb m1) := fun h => of_one h (by decide) (by decide)
theorem halt : Statement .halt := fun _ => by decide

theorem unrecognized (op : Int) : Statement (.unrecognized op) := by
  intro h
  simp only [Instr.WellFormed, Instr.wf, Bool.and_eq_true, decide_eq_true_eq] at h
  simp only [Instr.encodeValue, Instr.opcode]
  rcases Int.le_total 0 op with h0 | h0
  · exact Int.tmod_eq_of_lt h0 (by omega)
  · have : (-op).tmod 100 = -op := Int.tmod_eq_of_lt (by omega) (by omega)
    rw [Int.neg_tmod] at this
    omega

end Sys2Proof.Laws.OpcodeDigits
end

