-- ==== Sys2Proof/Laws/Step.lean ====
section
/-! SUPPORT. What one step can be: the cases of a running core and of the host's transactions. -/

namespace Sys2Proof.Machine

variable {s t : State} {i : Instr} {e : FaultInfo}

theorem step_of_running (h : s.runState = .running) : step s = coreStep s := by simp only [step, h]

theorem step_of_not_running (h : s.runState ≠ .running) : step s = hostStep s := by
  unfold step
  cases hr : s.runState <;> first | rfl | exact absurd hr h

theorem fetchInstruction_of_cell {w : Word} (h : CellIs s s.pc w) :
    fetchInstruction s = .ok i ↔ decode s.config.negDecode w = .ok i := by
  unfold fetchInstruction
  rw [memRead_eq_ok_iff.mpr h]
  cases hd : decode s.config.negDecode w with
  | error x => cases x; simp [hd]
  | ok j => simp [hd]

theorem fetchInstruction_eq_ok_iff :
    fetchInstruction s = .ok i ↔
      InBounds s.config.capacity s.pc ∧ decode s.config.negDecode (s.mem.get (cellOf s.pc)) = .ok i := by
  by_cases hin : InBounds s.config.capacity s.pc
  · rw [fetchInstruction_of_cell ⟨hin, rfl⟩]
    exact (and_iff_right hin).symm
  · have hm := memRead_eq_error_iff (s := s) (kind := .fetch) (i := 0) |>.mpr ⟨hin, rfl⟩
    refine ⟨fun h => ?_, fun h => absurd h.1 hin⟩
    simp [fetchInstruction, hm] at h

/-- The two faults of a fetch (46_dispatch.md R172, R173). -/
theorem fetchInstruction_error_cases (h : fetchInstruction s = .error e) :
    (¬ InBounds s.config.capacity s.pc ∧ e = memoryFault .fetch 0 s.pc) ∨
    (∃ w, CellIs s s.pc w ∧ s.config.negDecode = .fault ∧ w.toInt < 0 ∧ e = negativeInstructionWord w) := by
  unfold fetchInstruction at h
  split at h
  · cases h
    exact .inl (memRead_eq_error_iff.mp ‹_›)
  · rename_i w hw
    split at h
    · cases h
    · rename_i hd
      cases h
      unfold decode at hd
      split at hd
      · rename_i hc
        exact .inr ⟨w, memRead_eq_ok_iff.mp hw, hc.1, hc.2, rfl⟩
      · cases hd

/-- The three things a running core's step can be (R174). -/
theorem coreStep_cases (s : State) :
    ((s.loadedLength : Int) ≤ s.pc.toInt ∧ coreStep s = .next (s.halt .haltedOutOfBounds)) ∨
    (s.pc.toInt < s.loadedLength ∧ ∃ e, fetchInstruction s = .error e ∧ coreStep s = .next (s.enterFault e)) ∨
    (s.pc.toInt < s.loadedLength ∧ ∃ i, fetchInstruction s = .ok i ∧ coreStep s = exec i s) := by
  unfold coreStep State.atFetchLimit
  split
  · rename_i hlim
    exact .inl ⟨by simpa using hlim, rfl⟩
  · rename_i hlim
    have hlt : s.pc.toInt < s.loadedLength := by simpa using hlim
    cases hf : fetchInstruction s with
    | error e => exact .inr (.inl ⟨hlt, e, rfl, rfl⟩)
    | ok i => exact .inr (.inr ⟨hlt, i, rfl, rfl⟩)

/-- A step past the fetch limit and the fetch is the instruction (R174). -/
theorem step_eq_exec (hr : s.runState = .running) (hl : s.pc.toInt < s.loadedLength)
    (hf : fetchInstruction s = .ok i) : step s = exec i s := by
  rw [step_of_running hr]
  rcases coreStep_cases s with ⟨h, _⟩ | ⟨_, e, h, _⟩ | ⟨_, j, h, h2⟩
  · omega
  · cases hf.symm.trans h
  · cases hf.symm.trans h; exact h2

/-- The two things a step can be while the core is not running (R170, R176). -/
theorem hostStep_cases (s : State) :
    (s.host = [] ∧ hostStep s = .fault (idleReason s)) ∨
    ∃ x rest, s.host = x :: rest ∧ hostStep s = .next (s.dropHost.serve x) := by
  unfold hostStep
  cases h : s.host with
  | nil => exact .inl ⟨rfl, rfl⟩
  | cons x rest => exact .inr ⟨x, rest, rfl, rfl⟩

/-- An accepted or refused `Load` (70_reset_and_hazards.md R230, R235). -/
theorem acceptLoad_cases (s : State) (words : List Word) :
    (s.runState ≠ .running ∧ words.length ≤ s.config.capacity ∧ s.acceptLoad words = s.load words) ∨
    ((s.runState = .running ∨ s.config.capacity < words.length) ∧ s.acceptLoad words = s) := by
  unfold State.acceptLoad
  split
  · rename_i h; exact .inl ⟨h.1, h.2, rfl⟩
  · rename_i h
    refine .inr ⟨?_, rfl⟩
    by_cases hr : s.runState = .running
    · exact .inl hr
    · exact .inr (by
        by_contra hle
        exact h ⟨hr, by omega⟩)

/-- An accepted or ignored `Start` (R234). -/
theorem acceptStart_cases (s : State) :
    (s.runState = .loaded ∧ s.acceptStart = { s with runState := .running }) ∨
    (s.runState ≠ .loaded ∧ s.acceptStart = s) := by
  unfold State.acceptStart
  split
  · exact .inl ⟨‹_›, rfl⟩
  · exact .inr ⟨‹_›, rfl⟩

end Sys2Proof.Machine
end

