-- ==== Sys2Proof/Laws/Run.lean ====
section
/-! SUPPORT. Running under fuel, one step at a time, and the cells a step leaves. -/

namespace Sys2Proof.Machine

variable {s t u : State} {n k : Nat}

theorem terminal_iff_ended : s.runState.terminal = true ↔ Ended s := by
  unfold Ended
  cases s.runState <;> simp [RunState.terminal]

theorem not_ended_of_running (h : s.runState = .running) : ¬ Ended s := by simp [Ended, h]

theorem runUnderFuel_of_ended (h : Ended s) : runUnderFuel n s = .ended s.leaves := by
  cases n <;> simp [runUnderFuel, terminal_iff_ended.mpr h]

theorem runUnderFuel_zero (h : ¬ Ended s) : runUnderFuel 0 s = .notEnded s := by
  simp [runUnderFuel, mt terminal_iff_ended.mp h]

theorem runUnderFuel_succ_of_next (h : ¬ Ended s) (hs : step s = .next t) :
    runUnderFuel (n + 1) s = runUnderFuel n t := by
  simp [runUnderFuel, mt terminal_iff_ended.mp h, hs]

/-- A core that has no step has not ended, whatever the fuel (R177). -/
theorem runUnderFuel_of_no_step (h : ¬ Ended s) (hs : ∀ t, step s ≠ .next t) : runUnderFuel n s = .notEnded s := by
  cases n with
  | zero => exact runUnderFuel_zero h
  | succ n =>
    simp only [runUnderFuel, mt terminal_iff_ended.mp h]
    cases hx : step s with
    | next t => exact absurd hx (hs t)
    | fault f => rfl
    | refused r => rfl

/-- The two forms of `RunTo`. -/
theorem runTo_cases (h : RunTo n s u) :
    (n = 0 ∧ u = s) ∨ ∃ k t, n = k + 1 ∧ ¬ Ended s ∧ step s = .next t ∧ RunTo k t u := by
  cases h with
  | refl => exact .inl ⟨rfl, rfl⟩
  | head h1 h2 h3 => exact .inr ⟨_, _, rfl, h1, h2, h3⟩

/-- A cell that no step writes keeps its word, given that one step that spares it does. -/
theorem CellNotWritten.get_eq (hstep : ∀ s t, StepSparesCell s k → step s = .next t → t.mem.get k = s.mem.get k)
    (h : CellNotWritten k s t) : t.mem.get k = s.mem.get k := by
  induction h with
  | refl => rfl
  | tail _ hs hn ih => exact (hstep _ _ hs hn).trans ih

end Sys2Proof.Machine
end

