-- ==== Sys2Proof/Tests/Slice0.lean ====
section
/-! SUPPORT. Tests on small states, their expected results from spec/95_test_vectors.md or worked out from the
rule named, and a witness of the hypotheses of every statement that has some. -/

namespace Sys2Proof.Tests

open Sys2Proof Sys2Proof.Machine

/-- The start of the test vectors: the words loaded at 0, the core running at 0. -/
def start (words : List Word) : State := (State.reset.load words).acceptStart

/-- `start` under the `FAULT` overflow policy. -/
def startChecked (words : List Word) : State :=
  { start words with config := { Config.default with overflowPolicy := .fault } }

/-- `start` with input items and the given `io_mode`. -/
def startInput (words : List Word) (mode : IoMode) (items : List InputItem) (ended : Bool) : State :=
  { start words with ioMode := mode, input := { items := items, ended := ended } }

/-- `start` with the output port's next answers. -/
def startOutput (words : List Word) (answers : List OutputAnswer) (takesAll : Bool) : State :=
  { start words with outPort := { answers := answers, takesAll := takesAll } }

/-- The outcome is a next state with property `p`. -/
def runs (o : Result) (p : State → Bool) : Bool :=
  match o with
  | .next t => p t
  | .fault _ => false
  | .refused _ => false

/-- The outcome is a next state in `HaltedFault` with this record. -/
def faults (o : Result) (f : FaultStatus) : Bool := runs o fun t => decide (t.runState = .haltedFault ∧ t.fault = f)

/-- The outcome is the stop `f`. -/
def stops (o : Result) (f : Fault) : Bool :=
  match o with
  | .next _ => false
  | .fault g => decide (g = f)
  | .refused _ => false

theorem next_of_runs {o : Result} {p : State → Bool} (h : runs o p = true) : ∃ t, o = .next t ∧ p t = true := by
  cases o with
  | next t => exact ⟨t, rfl, h⟩
  | fault f => cases h
  | refused r => cases h

theorem fault_of_stops {o : Result} {f : Fault} (h : stops o f = true) : o = .fault f := by
  cases o with
  | next t => cases h
  | fault g => exact congrArg _ (of_decide_eq_true h)
  | refused r => cases h

/-! ## WellFormed refuses -/

theorem test_wf_refuses_add_mode1 : (Instr.add (.unknown 2) .position .position).wf = false := by decide
theorem test_wf_refuses_add_mode2 : (Instr.add .position (.unknown 10) .position).wf = false := by decide
theorem test_wf_refuses_add_mode3 : (Instr.add .position .position (.unknown 0)).wf = false := by decide
theorem test_wf_refuses_mul : (Instr.mul (.unknown 10) .position .position).wf = false ∧
    (Instr.mul .position (.unknown 10) .position).wf = false ∧
    (Instr.mul .position .position (.unknown 10)).wf = false := by decide
theorem test_wf_refuses_inp : (Instr.inp (.unknown 1)).wf = false := by decide
theorem test_wf_refuses_out : (Instr.out (.unknown 10)).wf = false := by decide
theorem test_wf_refuses_jit : (Instr.jit (.unknown 2) .position).wf = false ∧
    (Instr.jit .position (.unknown 11)).wf = false := by decide
theorem test_wf_refuses_jif : (Instr.jif (.unknown 2) .position).wf = false ∧
    (Instr.jif .position (.unknown 11)).wf = false := by decide
theorem test_wf_refuses_lt : (Instr.lt (.unknown 10) .position .position).wf = false ∧
    (Instr.lt .position (.unknown 10) .position).wf = false ∧
    (Instr.lt .position .position (.unknown 10)).wf = false := by decide
theorem test_wf_refuses_eq : (Instr.eq (.unknown 10) .position .position).wf = false ∧
    (Instr.eq .position (.unknown 10) .position).wf = false ∧
    (Instr.eq .position .position (.unknown 10)).wf = false := by decide
theorem test_wf_refuses_arb : (Instr.arb (.unknown 2)).wf = false := by decide
theorem test_wf_refuses_recognized : (Instr.unrecognized 1).wf = false ∧ (Instr.unrecognized 9).wf = false ∧
    (Instr.unrecognized 99).wf = false := by decide
theorem test_wf_refuses_no_remainder : (Instr.unrecognized 100).wf = false ∧
    (Instr.unrecognized (-100)).wf = false := by decide
theorem test_wf_accepts : Instr.halt.wf = true ∧ (Instr.unrecognized (-99)).wf = true ∧
    (Instr.add (.unknown 3) (.unknown 9) .relative).wf = true := by decide

/-! ## Words written out from the encoding (30_encoding.md R61, R63, R71: digits `m3 m2 m1 op op`) -/

theorem test_decode_add : decode .trunc 21101 = .ok (.add .immediate .immediate .relative) := by decide
theorem test_decode_mul : decode .trunc 1002 = .ok (.mul .position .immediate .position) := by decide
theorem test_decode_inp : decode .trunc 203 = .ok (.inp .relative) := by decide
theorem test_decode_out : decode .trunc 104 = .ok (.out .immediate) := by decide
theorem test_decode_jit : decode .trunc 2105 = .ok (.jit .immediate .relative) := by decide
theorem test_decode_jif : decode .trunc 1206 = .ok (.jif .relative .immediate) := by decide
theorem test_decode_lt : decode .trunc 21107 = .ok (.lt .immediate .immediate .relative) := by decide
theorem test_decode_eq : decode .trunc 11208 = .ok (.eq .relative .immediate .immediate) := by decide
theorem test_decode_arb : decode .trunc 109 = .ok (.arb .immediate) := by decide
theorem test_decode_halt : decode .trunc 21199 = .ok .halt := by decide
theorem test_decode_unrecognized : decode .trunc 123456 = .ok (.unrecognized 56) := by decide
theorem test_decode_negative : decode .trunc (-99) = .ok (.unrecognized (-99)) ∧
    decode .floor (-99) = .ok (.add (.unknown 9) (.unknown 9) (.unknown 9)) ∧
    decode .fault (-1) = .error .negativeInstructionWord := by decide
/-- The row's second word (bits 127..64) is no part of the instruction word. -/
theorem test_decodeTableWord : decodeTableWord 64 1101 = some (.add .immediate .immediate .position) ∧
    decodeTableWord 128 (7 * 2 ^ 64 + 104) = some (.out .immediate) := by decide

/-! ## One step each (95_test_vectors.md, by id) -/

/-- L2. -/
theorem test_add_wraps :
    runs (step (start [1101, 9223372036854775807, 1, 10]))
      (fun t => decide (t.mem.get 10 = -9223372036854775808 ∧ t.pc = 4)) = true := by decide
/-- L3. -/
theorem test_add_overflow_faults :
    faults (step (startChecked [1101, 9223372036854775807, 1, 10])) ⟨.arithmeticOverflow, .alu, 0, 0, 0⟩ = true := by
  decide
/-- L21. -/
theorem test_mul_negatives :
    runs (step (start [1102, -3, -4, 10])) (fun t => decide (t.mem.get 10 = 12 ∧ t.pc = 4)) = true := by decide
/-- L24. -/
theorem test_mul_wraps :
    runs (step (start [1102, 4294967296, 4294967296, 10]))
      (fun t => decide (t.mem.get 10 = 0 ∧ t.pc = 4)) = true := by decide
/-- L31. -/
theorem test_lt_signed :
    runs (step (start [1107, -1, 0, 10])) (fun t => decide (t.mem.get 10 = 1 ∧ t.pc = 4)) = true := by decide
/-- L30. -/
theorem test_lt_not_strict :
    runs (step (start [1107, 5, 5, 10])) (fun t => decide (t.mem.get 10 = 0)) = true := by decide
/-- L34. -/
theorem test_eq_equal :
    runs (step (start [1108, 5, 5, 10])) (fun t => decide (t.mem.get 10 = 1 ∧ t.pc = 4)) = true := by decide
/-- L35. -/
theorem test_eq_unequal :
    runs (step (start [1108, 5, -5, 10])) (fun t => decide (t.mem.get 10 = 0)) = true := by decide
/-- L14: mode digit 9 on the destination is relative. -/
theorem test_destination_collapse :
    runs (step ((start [91101, 1, 1, 5]).setRb 100)) (fun t => decide (t.mem.get 105 = 2)) = true := by decide
/-- L17: operand 1 is checked before operand 2. -/
theorem test_operand1_first :
    faults (step (start [501, 0, -1, 0])) ⟨.unknownAddressingMode, .read, 1, 5, 0⟩ = true := by decide
/-- V4, P3: IN stores 65. -/
theorem test_in_char :
    runs (step (startInput [3, 0, 4, 0, 99] .char [.datum 65] false))
      (fun t => decide (t.mem.get 0 = 65 ∧ t.pc = 2 ∧ t.consumed = [65] ∧ t.input.items = [])) = true := by decide
/-- R126: the item is consumed although the write faults. -/
theorem test_in_write_fault_consumes :
    runs (step (startInput [3, 30000] .decimal [.datum 7] false))
      (fun t => decide (t.fault = ⟨.memoryFault, .write, 1, 30000, 0⟩ ∧ t.consumed = [7] ∧ t.pc = 0)) = true := by
  decide
/-- R127: `104, -7` outputs -7. -/
theorem test_out_immediate :
    runs (step (start [104, -7])) (fun t => decide (t.output = [-7] ∧ t.pc = 2)) = true := by decide
/-- R127: an answer `Fault` records no output. -/
theorem test_out_fault :
    runs (step (startOutput [104, -7] [.fault] true))
      (fun t => decide (t.fault = ⟨.ioFault, .output, 0, 0, 0⟩ ∧ t.output = [] ∧ t.pc = 0)) = true := by decide
/-- R140, R142: a negative word is not zero, and a negative target is taken as it is. -/
theorem test_jit_taken :
    runs (step (start [1105, -1, -3])) (fun t => decide (t.pc = -3)) = true := by decide
theorem test_jit_falls_through :
    runs (step (start [1105, 0, 7])) (fun t => decide (t.pc = 3)) = true := by decide
theorem test_jif_falls_through :
    runs (step (start [1106, 1, 7])) (fun t => decide (t.pc = 3)) = true := by decide
theorem test_jif_taken :
    runs (step (start [1106, 0, 7])) (fun t => decide (t.pc = 7)) = true := by decide
/-- R150: the operand is read through the old `rb`. -/
theorem test_arb_old_base :
    runs (step ((start [209, 1, 40]).setRb 1)) (fun t => decide (t.rb = 41 ∧ t.pc = 2)) = true := by decide
theorem test_arb_wraps :
    runs (step ((start [109, 1]).setRb 9223372036854775807))
      (fun t => decide (t.rb = -9223372036854775808)) = true := by decide
/-- R160. -/
theorem test_halt :
    runs (step (start [99])) (fun t => decide (t.runState = .haltedNormal ∧ t.pc = 0)) = true := by decide
/-- R161, H6. -/
theorem test_unrecognized :
    runs (step (start [-1, 99])) (fun t => decide (t.pc = 1 ∧ t.runState = .running)) = true := by decide
/-- S1. -/
theorem test_empty_image_ends :
    runs (step (start [])) (fun t => decide (t.runState = .haltedOutOfBounds ∧ t.pc = 0)) = true := by decide
/-- P6. -/
theorem test_negative_pc_faults :
    faults (step ((start [99]).jump (-3))) ⟨.memoryFault, .fetch, 0, -3, -3⟩ = true := by decide
/-- V3, S4, S5, S6. -/
theorem test_image_words :
    imageWords [0xFF, 0xFF, 0xFF, 0xFF, 0xFF, 0xFF, 0xFF, 0xFF] = [-1] ∧
    imageWords [0, 0, 0, 0, 0, 0, 0, 0x80] = [-9223372036854775808] ∧
    imageWords [0x63, 0, 0, 0, 0, 0, 0, 0, 1, 2, 3, 4] = [99] := by decide
/-- The instruction placed after reset is the one the next step runs. -/
theorem test_withFetchWord :
    runs (step (State.reset.withFetchWord 128 (7 * 2 ^ 64 + 104))) (fun t => decide (t.output = [7] ∧ t.pc = 2)) =
      true := by decide

/-! ## Witnesses: the hypotheses of each statement can be met -/

theorem witness_DecodeEncodeRoundTrip :
    (Instr.add (.unknown 3) (.unknown 9) .immediate).WellFormed ∧
    ((NegDecode.floor = .trunc) ∨ 0 ≤ (Instr.add (.unknown 3) (.unknown 9) .immediate).opcode) ∧
    (Instr.unrecognized (-99)).WellFormed ∧
    ((NegDecode.trunc = .trunc) ∨ 0 ≤ (Instr.unrecognized (-99)).opcode) := by decide

theorem witness_DecodedInstrIsWellFormed : decode .floor (-101) = .ok .halt := by decide

theorem witness_OnlyOwnDigitsMatter :
    (0 ≤ (303 : Word).toInt ∧ 0 ≤ (57303 : Word).toInt ∧ decode .fault 303 = .ok (.inp (.unknown 3)) ∧
      (303 : Word).toInt % 10 ^ ((Instr.inp (.unknown 3)).length + 1) =
        (57303 : Word).toInt % 10 ^ ((Instr.inp (.unknown 3)).length + 1)) ∧
    (0 ≤ (99 : Word).toInt ∧ 0 ≤ (99999 : Word).toInt ∧ decode .floor 99 = .ok .halt ∧
      (99 : Word).toInt % 10 ^ (Instr.halt.length + 1) = (99999 : Word).toInt % 10 ^ (Instr.halt.length + 1)) := by
  decide

theorem witness_NegativeWordsFollowNegDecode :
    (-1 : Word).toInt < 0 ∧ 0 ≤ (99999 : Word).toInt ∧
      (99999 : Word).toInt % 100000 = (-1 : Word).toInt % 100000 := by decide

theorem witness_UnrecognizedOpcodeIsNoOp :
    (¬ (NegDecode.fault = .fault ∧ (10 : Word).toInt < 0) ∧
      ¬ ((1 ≤ opField .fault (10 : Word).toInt ∧ opField .fault (10 : Word).toInt ≤ 9) ∨
        opField .fault (10 : Word).toInt = 99)) ∧
    (¬ (NegDecode.floor = .fault ∧ (-1 : Word).toInt < 0) ∧ opField .floor (-2 : Word).toInt = 98) ∧
    (-9223372036854775808 : Word).toInt < 0 := by decide

/-- Both clauses of the bounds check, on both sides of each bound: no address meets both. -/
theorem witness_bounds_clauses :
    InBounds 30000 0 ∧ InBounds 30000 29999 ∧ ¬ InBounds 30000 (-1) ∧ ¬ InBounds 30000 30000 := by decide

theorem witness_MemReadChecksBounds :
    InBounds (start [1]).config.capacity 29999 ∧ ¬ InBounds (start [1]).config.capacity 30000 := by decide

theorem witness_MemWriteChangesOneCell :
    (start [1, 0, 2]).mem.wf = true ∧ InBounds (start [1, 0, 2]).config.capacity 0 ∧
      ¬ InBounds (start [1, 0, 2]).config.capacity (-1) := by decide

theorem witness_WriteAddressTwoWayCollapse :
    (Mode.unknown 9 ≠ .position) ∧ fetchOperand (start [91101, 1, 1, 5]) 3 = .ok 5 := by decide

theorem witness_AddStoresSum :
    Reads (start [1101, 2, 3, 29999]) 1 .immediate 2 ∧ Reads (start [1101, 2, 3, 29999]) 2 .immediate 3 ∧
    Names (start [1101, 2, 3, 29999]) 3 .position 29999 ∧
    InBounds (start [1101, 2, 3, 29999]).config.capacity 29999 ∧
    ((start [1101, 2, 3, 29999]).config.overflowPolicy = .wrap ∨ InI64 ((2 : Word).toInt + (3 : Word).toInt)) :=
  ⟨⟨2, ⟨by decide, by decide⟩, rfl⟩, ⟨3, ⟨by decide, by decide⟩, rfl⟩, ⟨29999, ⟨by decide, by decide⟩, rfl⟩,
    by decide, by decide⟩

/-- The other disjunct, the overflow policy `FAULT`, with relative operands and a collapsed destination. -/
theorem witness_MulStoresProduct :
    Reads ((startChecked [12202, 1, 2, -5]).setRb 5) 1 .relative 0 ∧
    Reads ((startChecked [12202, 1, 2, -5]).setRb 5) 2 .relative 0 ∧
    Names ((startChecked [12202, 1, 2, -5]).setRb 5) 3 .immediate 0 ∧
    InBounds ((startChecked [12202, 1, 2, -5]).setRb 5).config.capacity 0 ∧
    (((startChecked [12202, 1, 2, -5]).setRb 5).config.overflowPolicy = .wrap ∨
      InI64 ((0 : Word).toInt * (0 : Word).toInt)) :=
  ⟨⟨1, ⟨by decide, by decide⟩, by decide, by decide⟩, ⟨2, ⟨by decide, by decide⟩, by decide, by decide⟩,
    ⟨-5, ⟨by decide, by decide⟩, by decide⟩, by decide, by decide⟩

theorem witness_LtStoresComparison :
    Reads (start [7, 0, 1, 2]) 1 .position 7 ∧ Reads (start [7, 0, 1, 2]) 2 .position 0 ∧
    Names (start [7, 0, 1, 2]) 3 .position 2 ∧ InBounds (start [7, 0, 1, 2]).config.capacity 2 :=
  ⟨⟨0, ⟨by decide, by decide⟩, by decide, by decide⟩, ⟨1, ⟨by decide, by decide⟩, by decide, by decide⟩,
    ⟨2, ⟨by decide, by decide⟩, rfl⟩, by decide⟩

theorem witness_EqStoresComparison :
    Reads (start [108, 8, 0, 2]) 1 .immediate 8 ∧ Reads (start [108, 8, 0, 2]) 2 .position 108 ∧
    Names (start [108, 8, 0, 2]) 3 (.unknown 7) 2 ∧ InBounds (start [108, 8, 0, 2]).config.capacity 2 :=
  ⟨⟨8, ⟨by decide, by decide⟩, rfl⟩, ⟨0, ⟨by decide, by decide⟩, by decide, by decide⟩,
    ⟨2, ⟨by decide, by decide⟩, by decide⟩, by decide⟩

theorem witness_F3FaultsInOrder_source1 :
    IsF3 (.add (.unknown 5) .position .position) (.unknown 5) .position .position ∧
    SourceFaults (start [501, 0, -1, 0]) 1 (.unknown 5) ⟨.unknownAddressingMode, .read, 1, 5⟩ :=
  ⟨.inl rfl, .inr ⟨0, ⟨by decide, by decide⟩, rfl⟩⟩

theorem witness_F3FaultsInOrder_source2 :
    Reads (start [107, 4, -1, 0]) 1 .immediate 4 ∧
    SourceFaults (start [107, 4, -1, 0]) 2 .position ⟨.memoryFault, .read, 2, -1⟩ :=
  ⟨⟨4, ⟨by decide, by decide⟩, rfl⟩, .inr ⟨-1, ⟨by decide, by decide⟩, by decide, rfl⟩⟩

/-- An instruction whose third operand word would lie just above memory. -/
theorem witness_F3FaultsInOrder_word3 :
    Reads ((start [1]).jump 29997) 1 .immediate 0 ∧ Reads ((start [1]).jump 29997) 2 .immediate 0 ∧
    OperandFaults ((start [1]).jump 29997) 3 ⟨.memoryFault, .operandFetch, 3, 30000⟩ :=
  ⟨⟨0, ⟨by decide, by decide⟩, rfl⟩, ⟨0, ⟨by decide, by decide⟩, rfl⟩, by decide, by decide⟩

theorem witness_F3FaultsInOrder_overflow :
    Reads (startChecked [1101, 9223372036854775807, 1, 10]) 1 .immediate 9223372036854775807 ∧
    Reads (startChecked [1101, 9223372036854775807, 1, 10]) 2 .immediate 1 ∧
    Names (startChecked [1101, 9223372036854775807, 1, 10]) 3 .position 10 ∧
    Overflows (startChecked [1101, 9223372036854775807, 1, 10]) (.add .immediate .immediate .position)
      9223372036854775807 1 :=
  ⟨⟨_, ⟨by decide, by decide⟩, rfl⟩, ⟨_, ⟨by decide, by decide⟩, rfl⟩, ⟨_, ⟨by decide, by decide⟩, rfl⟩, rfl,
    by decide⟩

theorem witness_F3FaultsInOrder_write :
    Reads (start [1101, 1, 1, 30000]) 1 .immediate 1 ∧ Reads (start [1101, 1, 1, 30000]) 2 .immediate 1 ∧
    Names (start [1101, 1, 1, 30000]) 3 .position 30000 ∧
    ¬ Overflows (start [1101, 1, 1, 30000]) (.add .immediate .immediate .position) 1 1 ∧
    ¬ InBounds (start [1101, 1, 1, 30000]).config.capacity 30000 :=
  ⟨⟨_, ⟨by decide, by decide⟩, rfl⟩, ⟨_, ⟨by decide, by decide⟩, rfl⟩, ⟨_, ⟨by decide, by decide⟩, rfl⟩,
    fun h => absurd h.1 (by decide), by decide⟩

theorem witness_OverflowPolicyLaws :
    aluAdd .fault (-9223372036854775807) (-1) = .ok (-9223372036854775808) ∧
    InI64 ((-9223372036854775807 : Word).toInt + (-1 : Word).toInt) ∧
    ¬ InI64 ((9223372036854775807 : Word).toInt + (1 : Word).toInt) ∧
    aluMul .wrap 4611686018427387904 1 = .ok 4611686018427387904 ∧
    InI64 ((4611686018427387904 : Word).toInt * (1 : Word).toInt) ∧
    ¬ InI64 ((4611686018427387904 : Word).toInt * (2 : Word).toInt) := by decide

theorem witness_InStoresInput :
    Names (startInput [3, 0] .decimal [.datum (-9223372036854775808)] true) 1 .position 0 ∧
    InBounds (startInput [3, 0] .decimal [.datum (-9223372036854775808)] true).config.capacity 0 ∧
    (startInput [3, 0] .decimal [.datum (-9223372036854775808)] true).input.items =
      .datum (-9223372036854775808) :: [] ∧ InI64 (-9223372036854775808) :=
  ⟨⟨0, ⟨by decide, by decide⟩, rfl⟩, by decide, rfl, by decide⟩

theorem witness_InAtEndOfStream (mode : IoMode) :
    Names (startInput [103, 7] mode [] true) 1 .immediate 7 ∧
    (startInput [103, 7] mode [] true).input.items = [] ∧ (startInput [103, 7] mode [] true).input.ended = true ∧
    (startInput [103, 7] mode [] true).ioMode = mode ∧
    InBounds (startInput [103, 7] mode [] true).config.capacity 7 :=
  ⟨⟨7, ⟨by cases mode <;> decide, by cases mode <;> decide⟩, by cases mode <;> decide⟩, rfl, rfl, rfl,
    by cases mode <;> decide⟩

theorem witness_InFaults_word :
    OperandFaults ((start [1]).jump 29999) 1 ⟨.memoryFault, .operandFetch, 1, 30000⟩ := ⟨by decide, by decide⟩

theorem witness_InFaults_item :
    Names (startInput [3, 7] .decimal [.datum 9223372036854775808] false) 1 .position 7 ∧
    (startInput [3, 7] .decimal [.datum 9223372036854775808] false).input.items =
      .datum 9223372036854775808 :: [] ∧ ¬ InI64 9223372036854775808 :=
  ⟨⟨7, ⟨by decide, by decide⟩, rfl⟩, rfl, by decide⟩

theorem witness_InFaults_write :
    Names (startInput [3, 30000] .decimal [.datum 9223372036854775807] false) 1 .position 30000 ∧
    ¬ InBounds (startInput [3, 30000] .decimal [.datum 9223372036854775807] false).config.capacity 30000 ∧
    (startInput [3, 30000] .decimal [.datum 9223372036854775807] false).input.items =
      .datum 9223372036854775807 :: [] ∧ InI64 9223372036854775807 :=
  ⟨⟨30000, ⟨by decide, by decide⟩, rfl⟩, by decide, rfl, by decide⟩

theorem witness_InFaults_endOfStream :
    Names (startInput [3, -1] .char [] true) 1 .position (-1) ∧
    ¬ InBounds (startInput [3, -1] .char [] true).config.capacity (-1) ∧
    (startInput [3, -1] .char [] true).input.items = [] ∧ (startInput [3, -1] .char [] true).input.ended = true ∧
    (startInput [3, -1] .char [] true).ioMode = .char :=
  ⟨⟨-1, ⟨by decide, by decide⟩, rfl⟩, by decide, rfl, rfl, rfl⟩

theorem witness_OutEmitsWord_answered :
    Reads (startOutput [104, -7] [.ok] false) 1 .immediate (-7) ∧
    (startOutput [104, -7] [.ok] false).outPort.answers = .ok :: [] := ⟨⟨-7, ⟨by decide, by decide⟩, rfl⟩, rfl⟩

theorem witness_OutEmitsWord_takesAll :
    Reads (start [4, 0]) 1 .position 4 ∧ (start [4, 0]).outPort.answers = [] ∧
    (start [4, 0]).outPort.takesAll = true := ⟨⟨0, ⟨by decide, by decide⟩, by decide, by decide⟩, rfl, rfl⟩

theorem witness_OutFaults :
    SourceFaults ((start [204, 0]).setRb 30000) 1 .relative ⟨.memoryFault, .read, 1, 30000⟩ ∧
    Reads (startOutput [104, 0] [.fault] true) 1 .immediate 0 ∧
    (startOutput [104, 0] [.fault] true).outPort.answers = .fault :: [] :=
  ⟨.inr ⟨0, ⟨by decide, by decide⟩, by decide, by decide⟩, ⟨0, ⟨by decide, by decide⟩, rfl⟩, rfl⟩

theorem witness_PortWaitHasNoStep_in :
    (startInput [3, 7] .char [] false).runState = .running ∧
    (startInput [3, 7] .char [] false).pc.toInt < (startInput [3, 7] .char [] false).loadedLength ∧
    fetchInstruction (startInput [3, 7] .char [] false) = .ok (.inp .position) ∧
    Names (startInput [3, 7] .char [] false) 1 .position 7 ∧
    (startInput [3, 7] .char [] false).input.items = [] ∧ (startInput [3, 7] .char [] false).input.ended = false :=
  ⟨rfl, by decide, by decide, ⟨7, ⟨by decide, by decide⟩, rfl⟩, rfl, rfl⟩

theorem witness_PortWaitHasNoStep_out :
    (startOutput [104, 7] [] false).runState = .running ∧
    (startOutput [104, 7] [] false).pc.toInt < (startOutput [104, 7] [] false).loadedLength ∧
    fetchInstruction (startOutput [104, 7] [] false) = .ok (.out .immediate) ∧
    Reads (startOutput [104, 7] [] false) 1 .immediate 7 ∧
    (startOutput [104, 7] [] false).outPort.answers = [] ∧ (startOutput [104, 7] [] false).outPort.takesAll = false :=
  ⟨rfl, by decide, by decide, ⟨7, ⟨by decide, by decide⟩, rfl⟩, rfl, rfl⟩

theorem witness_OnlyInAndOutUsePorts_in :
    ∃ t, exec (.inp .position) (startInput [3, 7] .char [.datum 65] false) = .next t ∧
      decide (t.runState ≠ .haltedFault) = true := next_of_runs (by decide)

theorem witness_OnlyInAndOutUsePorts_out :
    ∃ t, exec (.out .immediate) (start [104, 7]) = .next t ∧ decide (t.runState ≠ .haltedFault) = true :=
  next_of_runs (by decide)

theorem witness_JitJumpsWhenNonzero :
    Reads (start [1105, -1, 0]) 1 .immediate (-1) ∧ Reads (start [1105, -1, 0]) 2 .immediate 0 ∧
    (-1 : Word).toInt ≠ 0 ∧
    Reads (start [1105, 0, 5]) 1 .immediate 0 ∧ Reads (start [1105, 0, 5]) 2 .immediate 5 ∧ (0 : Word).toInt = 0 :=
  ⟨⟨_, ⟨by decide, by decide⟩, rfl⟩, ⟨_, ⟨by decide, by decide⟩, rfl⟩, by decide,
    ⟨_, ⟨by decide, by decide⟩, rfl⟩, ⟨_, ⟨by decide, by decide⟩, rfl⟩, by decide⟩

theorem witness_JifJumpsWhenZero :
    Reads (start [1206, 4, 7]) 1 .relative 0 ∧ Reads (start [1206, 4, 7]) 2 .immediate 7 ∧ (0 : Word).toInt = 0 ∧
    Reads (start [1006, 0, 5]) 1 .position 1006 ∧ Reads (start [1006, 0, 5]) 2 .immediate 5 ∧
    (1006 : Word).toInt ≠ 0 :=
  ⟨⟨4, ⟨by decide, by decide⟩, by decide, by decide⟩, ⟨_, ⟨by decide, by decide⟩, rfl⟩, by decide,
    ⟨0, ⟨by decide, by decide⟩, by decide, by decide⟩, ⟨_, ⟨by decide, by decide⟩, rfl⟩, by decide⟩

theorem witness_JumpOperandsAreEager :
    SourceFaults (start [905, 0, 0]) 1 (.unknown 9) ⟨.unknownAddressingMode, .read, 1, 9⟩ ∧
    Reads (start [106, 1, 30000]) 1 .immediate 1 ∧
    SourceFaults (start [106, 1, 30000]) 2 .position ⟨.memoryFault, .read, 2, 30000⟩ :=
  ⟨.inr ⟨0, ⟨by decide, by decide⟩, rfl⟩, ⟨1, ⟨by decide, by decide⟩, rfl⟩,
    .inr ⟨30000, ⟨by decide, by decide⟩, by decide, rfl⟩⟩

theorem witness_ArbAddsToRelativeBase :
    Reads (start [109, -50]) 1 .immediate (-50) ∧
    SourceFaults (start [409, 0]) 1 (.unknown 4) ⟨.unknownAddressingMode, .read, 1, 4⟩ :=
  ⟨⟨_, ⟨by decide, by decide⟩, rfl⟩, .inr ⟨0, ⟨by decide, by decide⟩, rfl⟩⟩

theorem witness_RelativeBaseIsSumOfOperands :
    ∃ t, ArbRun (start [109, 100, 109, -50]) [100, -50] t :=
  ⟨_, .cons (mode := .immediate) ⟨100, ⟨by decide, by decide⟩, rfl⟩ rfl
    (.cons (mode := .immediate) ⟨-50, ⟨by decide, by decide⟩, rfl⟩ rfl (.nil _))⟩

theorem witness_RelativeBaseWrittenByArbOnly :
    (∀ m, Instr.add .immediate .position .position ≠ .arb m) ∧
    Instr.usesNoRb (.add .immediate .position .position) = true ∧
    (∃ t, exec (.add .immediate .position .position) (start [101, 1, 0, 0]) = .next t ∧
      decide (t.mem.get 0 = 102) = true) ∧
    Instr.usesNoRb (.inp .position) = true ∧
    exec (.inp .position) (startInput [3, 7] .char [] false) = .fault .inputWait :=
  ⟨(by intro m h; cases h), by decide, next_of_runs (by decide), by decide, fault_of_stops (by decide)⟩

theorem witness_F3Frame :
    IsF3 (.eq .immediate .immediate .position) .immediate .immediate .position ∧
    (∃ t, exec (.eq .immediate .immediate .position) (start [1108, 5, 5, 10]) = .next t ∧
      decide (t.runState = .running) = true) ∧
    (∃ t, exec (.eq .immediate .immediate .position) (start [1108, 5, 5, -1]) = .next t ∧
      decide (t.runState = .haltedFault) = true) :=
  ⟨.inr (.inr (.inr rfl)), next_of_runs (by decide), next_of_runs (by decide)⟩

theorem witness_InFrame :
    ∃ t, exec (.inp .relative) (startInput [203, 7] .decimal [.datum 65] false) = .next t ∧
      decide (t.runState = .running ∧ t.mem.get 7 = 65) = true := next_of_runs (by decide)

theorem witness_NonStoringFrame :
    (∃ t, exec (.arb .immediate) (start [109, 5]) = .next t ∧ decide (t.rb = 5) = true) ∧
    (∃ t, exec (.jit .immediate .position) (start [105, 0, -1]) = .next t ∧
      decide (t.runState = .haltedFault) = true) ∧
    (∃ t, exec .halt (start [99]) = .next t ∧ decide (t.runState = .haltedNormal) = true) :=
  ⟨next_of_runs (by decide), next_of_runs (by decide), next_of_runs (by decide)⟩

theorem witness_FaultsArePrecise :
    (start [3, 30000]).runState ≠ .haltedFault ∧
    (∃ t, exec (.inp .position) (startInput [3, 30000] .decimal [.datum 7] false) = .next t ∧
      decide (t.runState = .haltedFault ∧ t.consumed = [7]) = true) ∧
    (∃ t, exec (.inp .position) (startInput [3, 29999] .decimal [.datum 7] false) = .next t ∧
      decide (t.runState ≠ .haltedFault) = true) :=
  ⟨by decide, next_of_runs (by decide), next_of_runs (by decide)⟩

theorem witness_FetchFaults :
    ((start [99]).jump (-1)).runState = .running ∧ ((start [99]).jump (-1)).pc.toInt < 0 ∧
    (start [-1]).pc.toInt < (start [-1]).loadedLength ∧
    CellIs { start [-1] with config := { Config.default with negDecode := .fault } } 0 (-1) ∧
    (-1 : Word).toInt < 0 := ⟨rfl, by decide, by decide, ⟨by decide, by decide⟩, by decide⟩

theorem reset_inv_parts : State.reset.config.wf = true ∧ State.reset.mem.wf = true ∧
    State.reset.mem.within State.reset.config.capacity = true := by decide

theorem start_inv : (start [1101, 2, 3, 4]).Inv where
  capacity := by decide
  memCanonical := by decide
  memWithin := by decide
  loadedWithin := by decide
  streamFits := by decide
  faultClear _ := rfl
  faultLegal h := nomatch h
  faultPc h := nomatch h
  outOfBounds h := nomatch h
  haltWord h := nomatch h
  loadedReset h := nomatch h

theorem witness_FetchLimitEndsRun :
    ((start [99]).jump 1).runState = .running ∧
    (((start [99]).jump 1).loadedLength : Int) ≤ ((start [99]).jump 1).pc.toInt ∧
    ((start [99]).jump (-1)).pc.toInt < 0 ∧
    (start [1101, 2, 3, 4]).Inv ∧ (start [1101, 2, 3, 4]).pc.toInt < (start [1101, 2, 3, 4]).loadedLength :=
  ⟨rfl, by decide, by decide, start_inv, by decide⟩

theorem witness_StepRunsDecodedInstr :
    ((start [0, 99]).jump 1).runState = .running ∧
    ((start [0, 99]).jump 1).pc.toInt < ((start [0, 99]).jump 1).loadedLength ∧
    CellIs ((start [0, 99]).jump 1) 1 99 ∧ decode ((start [0, 99]).jump 1).config.negDecode 99 = .ok .halt :=
  ⟨rfl, by decide, ⟨by decide, by decide⟩, by decide⟩

/-- A product inside `i64`, under the policy `FAULT`, stored over the last word of the image. -/
theorem witness_StoreSeenByNextFetch_f3 :
    (startChecked [1102, 33, 3, 4, 0]).runState = .running ∧ (startChecked [1102, 33, 3, 4, 0]).mem.wf = true ∧
    IsF3 (.mul .immediate .immediate .position) .immediate .immediate .position ∧
    Reads (startChecked [1102, 33, 3, 4, 0]) 1 .immediate 33 ∧ Reads (startChecked [1102, 33, 3, 4, 0]) 2 .immediate 3 ∧
    Names (startChecked [1102, 33, 3, 4, 0]) 3 .position ((startChecked [1102, 33, 3, 4, 0]).pc + 4) ∧
    InBounds (startChecked [1102, 33, 3, 4, 0]).config.capacity ((startChecked [1102, 33, 3, 4, 0]).pc + 4) ∧
    ((startChecked [1102, 33, 3, 4, 0]).pc + 4).toInt < (startChecked [1102, 33, 3, 4, 0]).loadedLength ∧
    ¬ Overflows (startChecked [1102, 33, 3, 4, 0]) (.mul .immediate .immediate .position) 33 3 ∧
    Computes (.mul .immediate .immediate .position) 33 3 99 ∧
    decode (startChecked [1102, 33, 3, 4, 0]).config.negDecode 99 = .ok .halt :=
  ⟨rfl, by decide, .inr (.inl rfl), ⟨_, ⟨by decide, by decide⟩, rfl⟩, ⟨_, ⟨by decide, by decide⟩, rfl⟩,
    ⟨4, ⟨by decide, by decide⟩, rfl⟩, by decide, by decide, fun h => absurd h.2 (not_not_intro (by decide)),
    by show (99 : Word) = _; decide, by decide⟩

theorem witness_StoreSeenByNextFetch_in :
    (startInput [3, 2, 0] .char [.datum 99] false).runState = .running ∧
    (startInput [3, 2, 0] .char [.datum 99] false).mem.wf = true ∧
    Names (startInput [3, 2, 0] .char [.datum 99] false) 1 .position
      ((startInput [3, 2, 0] .char [.datum 99] false).pc + 2) ∧
    InBounds (startInput [3, 2, 0] .char [.datum 99] false).config.capacity
      ((startInput [3, 2, 0] .char [.datum 99] false).pc + 2) ∧
    ((startInput [3, 2, 0] .char [.datum 99] false).pc + 2).toInt <
      (startInput [3, 2, 0] .char [.datum 99] false).loadedLength ∧
    (startInput [3, 2, 0] .char [.datum 99] false).input.request .char
      (startInput [3, 2, 0] .char [.datum 99] false).config.eofSentinel = some (.value 99, ⟨[], false⟩) ∧
    decode (startInput [3, 2, 0] .char [.datum 99] false).config.negDecode 99 = .ok .halt :=
  ⟨rfl, by decide, ⟨2, ⟨by decide, by decide⟩, rfl⟩, by decide, by decide, rfl, by decide⟩

theorem witness_TerminalStatesAreFinal :
    Ended ((start [99]).halt .haltedNormal) ∧ ((start [99]).halt .haltedNormal).host = [] ∧
    (∃ t, step { (start [99]).halt .haltedNormal with host := [.load [1, 2]] } = .next t ∧
      decide (t.loadedLength = 2) = true) ∧
    (∃ t, step { (start [99]).halt .haltedFault with host := [.start] } = .next t ∧
      decide (t.runState = .haltedFault) = true) :=
  ⟨.inl rfl, rfl, next_of_runs (by decide), next_of_runs (by decide)⟩

theorem witness_StartBeginsRun :
    ({ State.reset with host := [.start] } : State).host = .start :: [] ∧
    ({ State.reset with host := [.start] } : State).runState = .loaded ∧
    Ended { State.reset with host := [.start], runState := .haltedOutOfBounds } := ⟨rfl, rfl, .inr (.inl rfl)⟩

theorem witness_LoadResetsCore :
    State.reset.runState ≠ .running ∧ ([1, 2] : List Word).length ≤ State.reset.config.capacity ∧
    State.reset.config.capacity < (List.replicate 30001 (0 : Word)).length :=
  ⟨by decide, by decide, by rw [List.length_replicate]; decide⟩

theorem witness_LoadedLengthWrittenByLoadOnly :
    (∃ t, step { State.reset with host := [.load [1, 2]] } = .next t ∧ decide (t.loadedLength = 2) = true) ∧
    (∃ t, step (start [104, 7]) = .next t ∧ decide (t.loadedLength = 2) = true) ∧
    exec (.inp .position) (startInput [3, 7] .char [] false) = .fault .inputWait :=
  ⟨next_of_runs (by decide), next_of_runs (by decide), fault_of_stops (by decide)⟩

theorem witness_IoModeChangesNoSemantics :
    ((∀ m, Instr.inp .position ≠ .inp m) ∨ (startInput [3, 7] .char [.datum 65] true).input.items ≠ [] ∨
      (startInput [3, 7] .char [.datum 65] true).input.ended = false) ∧
    (∃ t, exec (.inp .position) (startInput [3, 7] .char [.datum 65] true) = .next t ∧
      decide (t.mem.get 7 = 65) = true) ∧
    (startInput [3, 7] .char [] false).input.ended = false ∧
    exec (.inp .position) (startInput [3, 7] .char [] false) = .fault .inputWait :=
  ⟨.inr (.inl (by decide)), next_of_runs (by decide), rfl, fault_of_stops (by decide)⟩

theorem witness_StepStopsOnlyWhereSpecGivesNoStep :
    step (startInput [3, 7] .char [] false) = .fault .inputWait ∧
    step (startOutput [104, 7] [] false) = .fault .outputWait ∧
    step State.reset = .fault .notStarted ∧
    step ((start [99]).halt .haltedNormal) = .fault .runEnded :=
  ⟨fault_of_stops (by decide), fault_of_stops (by decide), fault_of_stops (by decide), fault_of_stops (by decide)⟩

theorem witness_PlacedInstructionRunsNext :
    (start [99]).config.wf = true ∧ (start [99]).mem.wf = true ∧
    decode (start [99]).config.negDecode (tableWord 64 109 0) = .ok (.arb .immediate) := by decide

theorem witness_HostReadBackOutsideRunning :
    (start [99]).runState = .running ∧ State.reset.runState ≠ .running ∧ 29999 < State.reset.config.capacity ∧
    State.reset.config.capacity ≤ 30000 := by decide

/-- Every condition on an encoding is met by a core that is not running. -/
theorem witness_HostReadBack_encodings (c : FaultCause) (k : FaultKind) (m : IoMode) :
    ∃ s : State, s.runState ≠ .running ∧ s.fault.cause = c ∧ s.fault.kind = k ∧ s.ioMode = m :=
  ⟨{ State.reset with fault := ⟨c, k, 0, 0, 0⟩, ioMode := m }, by simp [State.reset], rfl, rfl, rfl⟩

theorem witness_ImageIsLittleEndianWords : 0 < (List.replicate 12 (1 : Byte)).length / 8 ∧ 7 < 8 := by decide

theorem witness_StepKeepsInv :
    (start [1101, 2, 3, 4]).Inv ∧
    ∃ t, step (start [1101, 2, 3, 4]) = .next t ∧ decide (t.mem.get 4 = 5) = true :=
  ⟨start_inv, next_of_runs (by decide)⟩

/-! ## Runs under fuel (46_dispatch.md R177) -/

/-- One step ends the run of `[99]`. -/
theorem test_run_ends :
    runUnderFuel 1 (start [99]) = .ended ⟨.haltedNormal, 0, 0, [(0, 99)], ⟨.none, .none, 0, 0, 0⟩, [], 0⟩ := rfl

/-- Fuel that runs out, and a core that waits, are not ended. -/
theorem test_run_not_ended :
    runUnderFuel 0 (start [99]) = .notEnded (start [99]) ∧
    runUnderFuel 5 (startInput [3, 7] .char [] false) = .notEnded (startInput [3, 7] .char [] false) := ⟨rfl, rfl⟩

/-- The hang of R177: `1105, 1, 0` at address 0. -/
theorem witness_RunEndsOnlyInTerminalState :
    (start [1105, 1, 0]).runState = .running ∧ (start [1105, 1, 0]).pc.toInt < (start [1105, 1, 0]).loadedLength ∧
    fetchInstruction (start [1105, 1, 0]) = .ok (.jit .immediate .immediate) ∧
    Reads (start [1105, 1, 0]) 1 .immediate 1 ∧ (1 : Word).toInt ≠ 0 ∧
    Reads (start [1105, 1, 0]) 2 .immediate (start [1105, 1, 0]).pc :=
  ⟨rfl, by decide, by decide, ⟨_, ⟨by decide, by decide⟩, rfl⟩, by decide, ⟨_, ⟨by decide, by decide⟩, rfl⟩⟩

/-- `Start`, which spares every cell, after a load of two words: cell 1 and cell 29999 are not written. -/
theorem witness_UnwrittenCellReadsResetWord (k : Nat) :
    ∃ t, CellNotWritten k (({ State.reset with host := [.start] } : State).load [104, 7]) t ∧ t.runState = .running :=
  ⟨_, .tail (.refl _) (.inr ⟨by decide, fun _ h => nomatch h⟩) rfl, rfl⟩

theorem witness_StepSparesCell_running :
    StepSparesCell (start [1101, 2, 3, 10]) 9 ∧
    ∃ t, step (start [1101, 2, 3, 10]) = .next t ∧ decide (t.mem.get 10 = 5) = true := by
  refine ⟨.inl ⟨rfl, fun i dest hi hd _ => ?_⟩, next_of_runs (by decide)⟩
  have hf : fetchInstruction (start [1101, 2, 3, 10]) = .ok (.add .immediate .immediate .position) := by decide
  cases hf.symm.trans hi
  obtain ⟨raw, ⟨_, hraw⟩, rfl⟩ := hd
  rw [← hraw]
  decide

end Sys2Proof.Tests
end

section
/-! PROOFS. The memory interface (20_memory.md). -/

namespace Sys2Proof.Machine

/-- Settles O8: the new memory is `s.mem.set (cellOf a) v`. The canonical form is used only to read the written word
back: were a cell listed twice or out of order, writing 0, which lists nothing, could leave an older entry to read. -/
theorem memWriteChangesOneCell : Obligations.MemWriteChangesOneCell := by
  intro s i a v hwf
  constructor
  · intro hin
    have hwritten : (s.mem.set (cellOf a) v).get (cellOf a) = v := Memory.get_set_self _ v hwf
    have hframe : ∀ k, k ≠ cellOf a → (s.mem.set (cellOf a) v).get k = s.mem.get k :=
      fun _ hk => Memory.get_set_of_ne s.mem v hk.symm
    exact ⟨_, memWrite_eq_ok_iff.mpr ⟨hin, rfl⟩, hwritten, hframe⟩
  · intro hout
    exact memWrite_eq_error_iff.mpr ⟨hout, rfl⟩

end Sys2Proof.Machine
end

section
/-! PROOFS. Destination addresses and unrecognized opcodes (30_encoding.md R68, R72;
45_halt_and_unrecognized.md R161). -/

namespace Sys2Proof

/-- R72: an op outside the opcode map takes the last row, whatever the mode digits are. -/
theorem instrOfFields_of_unmapped {op : Int} (m1 m2 m3 : Mode) (h : ¬ ((1 ≤ op ∧ op ≤ 9) ∨ op = 99)) :
    instrOfFields op m1 m2 m3 = .unrecognized op := by
  have hne : op ≠ 1 ∧ op ≠ 2 ∧ op ≠ 3 ∧ op ≠ 4 ∧ op ≠ 5 ∧ op ≠ 6 ∧ op ≠ 7 ∧ op ≠ 8 ∧ op ≠ 9 ∧ op ≠ 99 := by omega
  simp only [instrOfFields, hne, if_false]

theorem decode_of_unmapped {nd : NegDecode} {w : Word} (hdecodes : ¬ (nd = .fault ∧ w.toInt < 0))
    (hop : ¬ ((1 ≤ opField nd w.toInt ∧ opField nd w.toInt ≤ 9) ∨ opField nd w.toInt = 99)) :
    decode nd w = .ok (.unrecognized (opField nd w.toInt)) :=
  decode_eq_ok_iff.mpr ⟨hdecodes, instrOfFields_of_unmapped _ _ _ hop⟩

/-- R62: the truncated remainder has the dividend's sign, so it never lies in the opcode map. -/
theorem opField_trunc_nonpos {n : Int} (h : n < 0) : opField .trunc n ≤ 0 := by
  have hneg : 0 ≤ (-n).tmod 100 := Int.tmod_nonneg 100 (by omega)
  rw [Int.neg_tmod] at hneg
  simp only [opField]
  omega

theorem decode_trunc_of_neg {w : Word} (h : w.toInt < 0) :
    decode .trunc w = .ok (.unrecognized (w.toInt.tmod 100)) :=
  have hop := opField_trunc_nonpos h
  decode_of_unmapped (nd := .trunc) (by simp) (by omega)

end Sys2Proof

namespace Sys2Proof.Machine

/-- `exec` gives every unrecognized opcode the one-word no-op (R161). -/
theorem exec_unrecognized (op : Int) (s : State) : exec (.unrecognized op) s = .next (s.advance 1) := rfl

/-- Settles O6: only a negative word under `FAULT` has no decoding; an op outside the map falls through to the last
row of the opcode map, and a negative word's op under `TRUNC` is at most 0. -/
theorem unrecognizedOpcodeIsNoOp : Obligations.UnrecognizedOpcodeIsNoOp := by
  refine ⟨fun nd w => ⟨fun e => decode_eq_error_iff, ?_⟩, fun w => decode_trunc_of_neg, exec_unrecognized⟩
  rintro hdecodes op rfl hop
  exact decode_of_unmapped hdecodes hop

/-- R69: the sum of the words is the wrapped sum of the integers they hold. -/
theorem relativeAddress_eq_wrap64 (s : State) (raw : Word) :
    relativeAddress s raw = wrap64 (s.rb.toInt + raw.toInt) := by
  simp only [relativeAddress, wrap64, BitVec.ofInt_add, BitVec.ofInt_toInt]

theorem writeAddress_position (s : State) (raw : Word) : writeAddress s .position raw = raw := rfl

/-- R68: the second way of the collapse takes every mode but position. -/
theorem writeAddress_of_ne_position {mode : Mode} (s : State) (raw : Word) (h : mode ≠ .position) :
    writeAddress s mode raw = relativeAddress s raw := by
  cases mode with
  | position => exact absurd rfl h
  | immediate | relative | unknown d => rfl

/-- R68: once the operand word is fetched, a destination has an address in every mode. -/
theorem destination_of_fetched {s : State} {i : Fin 4} {raw : Word} (mode : Mode) (h : fetchOperand s i = .ok raw) :
    destination s i mode = .ok (writeAddress s mode raw) := by
  simp only [destination, h]

/-- Settles O10: every mode but position takes the relative address, whose word sum is the wrapped integer sum. -/
theorem writeAddressTwoWayCollapse : Obligations.WriteAddressTwoWayCollapse := by
  intro s i mode raw
  have hrelative : mode ≠ .position → writeAddress s mode raw = wrap64 (s.rb.toInt + raw.toInt) := fun h =>
    (writeAddress_of_ne_position s raw h).trans (relativeAddress_eq_wrap64 s raw)
  exact ⟨writeAddress_position s raw, hrelative, destination_of_fetched mode⟩

end Sys2Proof.Machine
end

section
/-! PROOFS. Which instructions touch the ports, and how often (42_io.md R120). -/

namespace Sys2Proof.Machine

variable {s t : State} {i : Instr} {m : Mode}

/-- IN never touches the output side, whether it completes or faults. -/
theorem execIn_keeps_output (h : execIn m s = .next t) : t.outPort = s.outPort ∧ t.output = s.output := by
  rcases execIn_next_cases h with ⟨e, _, rfl⟩ | ⟨dest, _, ⟨p, _, rfl⟩ | ⟨v, p, _, _, rfl⟩ | ⟨v, p, _, _, rfl⟩⟩ <;>
    simp

/-- OUT never touches the input side, whether it completes or faults. -/
theorem execOut_keeps_input (h : execOut m s = .next t) : t.input = s.input ∧ t.consumed = s.consumed := by
  rcases execOut_next_cases h with ⟨e, _, rfl⟩ | ⟨a, _, ⟨p, _, rfl⟩ | ⟨p, _, rfl⟩⟩ <;> simp

/-- Of the next states of IN only the completed one is outside `HaltedFault`; there the port after the one request
is the input port, and the word it answered ends the consumed input. -/
theorem execIn_consumes_one (h : execIn m s = .next t) (ht : t.runState ≠ .haltedFault) :
    ∃ v, s.input.request s.ioMode s.config.eofSentinel = some (.value v, t.input) ∧ t.consumed = s.consumed ++ [v] := by
  rcases execIn_next_cases h with ⟨e, _, rfl⟩ | ⟨dest, _, ⟨p, _, rfl⟩ | ⟨v, p, hp, _, rfl⟩ | ⟨v, p, _, _, rfl⟩⟩
  case inr.inr.inl => exact ⟨v, hp, rfl⟩
  all_goals exact absurd rfl ht

/-- OUT outside `HaltedFault` has had its one transaction answered `Ok`, and its operand ends the output. -/
theorem execOut_emits_one (h : execOut m s = .next t) (ht : t.runState ≠ .haltedFault) :
    ∃ v, s.outPort.request = some (.ok, t.outPort) ∧ t.output = s.output ++ [v] := by
  rcases execOut_next_cases h with ⟨e, _, rfl⟩ | ⟨a, _, ⟨p, _, rfl⟩ | ⟨p, hp, rfl⟩⟩
  case inr.inr => exact ⟨a, hp, rfl⟩
  all_goals exact absurd rfl ht

/-- Seen from the ports an instruction is IN, or OUT, or one that leaves both sides as they were. -/
theorem exec_port_cases (h : exec i s = .next t) :
    (∃ m, i = .inp m ∧ execIn m s = .next t) ∨ (∃ m, i = .out m ∧ execOut m s = .next t) ∨
    ((∀ m, i ≠ .inp m) ∧ (∀ m, i ≠ .out m) ∧
      (t.input = s.input ∧ t.consumed = s.consumed) ∧ t.outPort = s.outPort ∧ t.output = s.output) := by
  rcases exec_next_cases h with ⟨e, hin, hout, _, rfl⟩ | ⟨_, _, _, _, _, hf3, _, _, rfl⟩ | hin | hout |
    ⟨_, _, _, hjump, rfl | rfl⟩ | ⟨_, _, rfl, rfl⟩ | ⟨rfl, rfl⟩ | ⟨_, rfl, rfl⟩
  · simp [hin, hout]
  · rcases hf3 with rfl | rfl | rfl | rfl <;> simp
  · exact .inl hin
  · exact .inr (.inl hout)
  · rcases hjump with rfl | rfl <;> simp
  · rcases hjump with rfl | rfl <;> simp
  · simp
  · simp
  · simp

/-- Settles O24: an instruction that is neither IN nor OUT leaves both ports alone, each of those two leaves the
other's side alone, and outside `HaltedFault` it has made its one request. -/
theorem onlyInAndOutUsePorts : Obligations.OnlyInAndOutUsePorts := by
  intro i s t h
  rcases exec_port_cases h with ⟨m, rfl, hin⟩ | ⟨m, rfl, hout⟩ | ⟨hnotIn, hnotOut, hinput, houtput⟩
  · exact ⟨fun hne => absurd rfl (hne m), fun _ => execIn_keeps_output hin,
      fun _ ht => ⟨fun _ _ => execIn_consumes_one hin ht, fun _ hm => (nomatch hm)⟩⟩
  · exact ⟨fun _ => execOut_keeps_input hout, fun hne => absurd rfl (hne m),
      fun _ ht => ⟨fun _ hm => (nomatch hm), fun _ _ => execOut_emits_one hout ht⟩⟩
  · exact ⟨fun _ => hinput, fun _ => houtput,
      fun _ _ => ⟨fun m hm => absurd hm (hnotIn m), fun m hm => absurd hm (hnotOut m)⟩⟩

end Sys2Proof.Machine
end

section
/-! PROOFS. The decimal encoding (30_encoding.md): round trip, well-formed answers, the digits that matter, and
negative words. -/

namespace Sys2Proof

variable {nd : NegDecode} {op n v w : Int} {m1 m2 m3 n1 n2 n3 : Mode} {k l : Nat} {i : Instr}

/-- R63, R66: the mode whose digit stands in its place is the mode read there. -/
theorem modeField_of_digit (nd : NegDecode) (hn : 0 ≤ n) {m : Mode} (hm : m.wf = true)
    (hd : n / 10 ^ (k + 1) % 10 = m.digit) : modeField nd n k = m := by
  rw [modeField, digitField_of_nonneg nd _ hn, hd, modeOfDigit_digit hm]

/-- R60: the fields of a value laid out by the encoding are the opcode and the three modes, whatever `NEG_DECODE` is. -/
theorem decode_ofInt_layout (nd : NegDecode) (hop : 0 ≤ op ∧ op < 100) (h1 : m1.wf = true) (h2 : m2.wf = true)
    (h3 : m3.wf = true) :
    decode nd (BitVec.ofInt 64 (op + 100 * m1.digit + 1000 * m2.digit + 10000 * m3.digit)) =
      .ok (instrOfFields op m1 m2 m3) := by
  have b1 := Mode.digit_bounds h1
  have b2 := Mode.digit_bounds h2
  have b3 := Mode.digit_bounds h3
  generalize hn : op + 100 * m1.digit + 1000 * m2.digit + 10000 * m3.digit = n
  have hnonneg : 0 ≤ n := by omega
  have hword : (BitVec.ofInt 64 n).toInt = n := by
    rw [BitVec.toInt_ofInt, Int.bmod_eq_of_le] <;> omega
  have hopField : opField nd n = op := by
    rw [opField_of_nonneg nd hnonneg]
    change n % 100 = op
    omega
  have hmode1 : modeField nd n 1 = m1 := modeField_of_digit nd hnonneg h1 (by omega)
  have hmode2 : modeField nd n 2 = m2 := modeField_of_digit nd hnonneg h2 (by omega)
  have hmode3 : modeField nd n 3 = m3 := modeField_of_digit nd hnonneg h3 (by omega)
  rw [decode_eq_ok_iff, hword]
  exact ⟨fun h => absurd h.2 (by omega), by rw [hopField, hmode1, hmode2, hmode3]⟩

@[simp] theorem Mode.digit_position : Mode.position.digit = 0 := rfl

/-- R75: an instruction with a non-negative opcode decodes from its word; the digits of absent operands are 0. -/
theorem decode_encode_of_opcode_nonneg (nd : NegDecode) (h : i.WellFormed) (hop : 0 ≤ i.opcode) :
    decode nd (encode i) = .ok i := by
  cases i with
  | add m1 m2 m3 | mul m1 m2 m3 | lt m1 m2 m3 | eq m1 m2 m3 =>
    simp only [Instr.WellFormed, Instr.wf, Bool.and_eq_true] at h
    obtain ⟨⟨h1, h2⟩, h3⟩ := h
    exact decode_ofInt_layout nd (by decide) h1 h2 h3
  | jit m1 m2 | jif m1 m2 =>
    simp only [Instr.WellFormed, Instr.wf, Bool.and_eq_true] at h
    have hlayout (op : Int) (hop : 0 ≤ op ∧ op < 100) := decode_ofInt_layout (m3 := .position) nd hop h.1 h.2 rfl
    simp only [Mode.digit_position, mul_zero, add_zero] at hlayout
    exact hlayout _ (by decide)
  | inp m1 | out m1 | arb m1 =>
    have hlayout (op : Int) (hop : 0 ≤ op ∧ op < 100) :=
      decode_ofInt_layout (m2 := .position) (m3 := .position) nd hop h rfl rfl
    simp only [Mode.digit_position, mul_zero, add_zero] at hlayout
    exact hlayout _ (by decide)
  | halt =>
    exact decode_ofInt_layout (op := 99) (m1 := .position) (m2 := .position) (m3 := .position) nd (by decide)
      rfl rfl rfl
  | unrecognized op =>
    simp only [Instr.WellFormed, Instr.wf, recognizedOp, Bool.and_eq_true, decide_eq_true_eq, Bool.not_eq_true',
      decide_eq_false_iff_not] at h
    have hlayout := decode_ofInt_layout (m1 := .position) (m2 := .position) (m3 := .position) nd
      (⟨hop, by omega⟩ : 0 ≤ op ∧ op < 100) rfl rfl rfl
    rw [instrOfFields_of_unmapped _ _ _ h.2] at hlayout
    simp only [Mode.digit_position, mul_zero, add_zero] at hlayout
    exact hlayout

/-- A negative opcode belongs to an unrecognized instruction alone, whose word is the opcode itself. -/
theorem decode_trunc_encode_of_opcode_neg (h : i.WellFormed) (hop : i.opcode < 0) :
    decode .trunc (encode i) = .ok i := by
  cases i with
  | unrecognized op =>
    have hvalue : (encode (.unrecognized op)).toInt = op := encode_toInt h
    rw [decode_trunc_of_neg (by rw [hvalue]; exact hop), hvalue]
    exact congrArg _ (congrArg _ (Laws.OpcodeDigits.unrecognized op h))
  | add | mul | inp | out | jit | jif | lt | eq | arb | halt => simp [Instr.opcode] at hop

/-- Settles O2: a non-negative opcode's word is laid out digit by digit, and a negative opcode, under `TRUNC`, is its
own word. -/
theorem decodeEncodeRoundTrip : Obligations.DecodeEncodeRoundTrip := by
  intro nd i hwf hnd
  by_cases hop : 0 ≤ i.opcode
  · exact decode_encode_of_opcode_nonneg nd hwf hop
  · obtain rfl := hnd.resolve_right hop
    exact decode_trunc_encode_of_opcode_neg hwf (by omega)

/-- R62: the floored opcode of any word is its remainder by 100 in `0..99`. -/
theorem opField_floor (n : Int) : opField .floor n = n % 100 := Int.fmod_eq_emod_of_nonneg n (by omega)

/-- R62: the floored digits of any word are decimal digits. -/
theorem digitField_floor (n : Int) (k : Nat) : digitField .floor n k = n / 10 ^ k % 10 := by
  rw [digitField, Int.fdiv_eq_ediv_of_nonneg n (by positivity), Int.fmod_eq_emod_of_nonneg _ (by omega)]

theorem modeOfDigit_emod_wf (n : Int) : (modeOfDigit (n % 10)).wf = true :=
  modeOfDigit_wf (by omega) (by omega) (by omega) (by omega)

/-- The ten rows of the opcode map (R71). -/
theorem mapped_op_cases (h : (1 ≤ op ∧ op ≤ 9) ∨ op = 99) :
    op = 1 ∨ op = 2 ∨ op = 3 ∨ op = 4 ∨ op = 5 ∨ op = 6 ∨ op = 7 ∨ op = 8 ∨ op = 9 ∨ op = 99 := by omega

/-- Well-formed modes and a remainder by 100 make a well-formed instruction (R71, R72). -/
theorem instrOfFields_wf (hop : -99 ≤ op ∧ op ≤ 99) (h1 : m1.wf = true) (h2 : m2.wf = true) (h3 : m3.wf = true) :
    (instrOfFields op m1 m2 m3).WellFormed := by
  by_cases hmap : (1 ≤ op ∧ op ≤ 9) ∨ op = 99
  · rcases mapped_op_cases hmap with rfl | rfl | rfl | rfl | rfl | rfl | rfl | rfl | rfl | rfl <;>
      simp [instrOfFields, Instr.WellFormed, Instr.wf, h1, h2, h3]
  · rw [instrOfFields_of_unmapped _ _ _ hmap]
    simp [Instr.WellFormed, Instr.wf, recognizedOp, hop, hmap]

/-- R62: a word is read by its floored digits, if it is not negative or the setting is `FLOOR`. -/
theorem decode_of_floored {x : Word} (h : 0 ≤ x.toInt ∨ nd = .floor) :
    decode nd x = .ok (instrOfFields (x.toInt % 100) (modeOfDigit (x.toInt / 10 ^ 2 % 10))
      (modeOfDigit (x.toInt / 10 ^ 3 % 10)) (modeOfDigit (x.toInt / 10 ^ 4 % 10))) := by
  rw [decode_eq_ok_iff]
  rcases h with hnonneg | rfl
  · simp only [modeField, opField_of_nonneg nd hnonneg, digitField_of_nonneg nd _ hnonneg]
    exact ⟨fun hneg => absurd hneg.2 (by omega), rfl⟩
  · simp only [modeField, opField_floor, digitField_floor]
    simp

/-- Settles O3: floored digits are decimal digits, and a truncated negative word is an unrecognized opcode. -/
theorem decodedInstrIsWellFormed : Obligations.DecodedInstrIsWellFormed := by
  intro nd x i h
  by_cases hfloored : 0 ≤ x.toInt ∨ nd = .floor
  · rw [decode_of_floored hfloored] at h
    obtain rfl := Except.ok.inj h
    exact instrOfFields_wf (by omega) (modeOfDigit_emod_wf _) (modeOfDigit_emod_wf _) (modeOfDigit_emod_wf _)
  · obtain ⟨hneg, hnd⟩ := not_or.mp hfloored
    have hdecodes := (decode_eq_ok_iff.mp h).1
    obtain rfl : nd = .trunc := by cases nd <;> simp_all
    rw [decode_trunc_of_neg (by omega)] at h
    obtain rfl := Except.ok.inj h
    have hle : x.toInt.tmod 100 ≤ 0 := opField_trunc_nonpos (by omega)
    have hge : -100 < x.toInt.tmod 100 := Int.lt_tmod_of_pos _ (by omega)
    simp only [Instr.WellFormed, Instr.wf, recognizedOp, Bool.and_eq_true, decide_eq_true_eq, Bool.not_eq_true',
      decide_eq_false_iff_not]
    omega

/-- R65: of three mode digits an opcode uses as many as its length has operand words. -/
theorem instrOfFields_congr (h1 : 2 ≤ (instrOfFields op m1 m2 m3).length → m1 = n1)
    (h2 : 3 ≤ (instrOfFields op m1 m2 m3).length → m2 = n2)
    (h3 : 4 ≤ (instrOfFields op m1 m2 m3).length → m3 = n3) :
    instrOfFields op m1 m2 m3 = instrOfFields op n1 n2 n3 := by
  by_cases hmap : (1 ≤ op ∧ op ≤ 9) ∨ op = 99
  · rcases mapped_op_cases hmap with rfl | rfl | rfl | rfl | rfl | rfl | rfl | rfl | rfl | rfl <;>
      simp_all [instrOfFields, Instr.length]
  · rw [instrOfFields_of_unmapped _ _ _ hmap, instrOfFields_of_unmapped _ _ _ hmap]

/-- Values that agree in their low `l` digits agree in each of them. -/
theorem digit_eq_of_emod_eq (hk : k < l) (h : v % 10 ^ l = w % 10 ^ l) : v / 10 ^ k % 10 = w / 10 ^ k % 10 := by
  obtain ⟨q, hq⟩ : (10 ^ k * 10 : Int) ∣ v - w :=
    (pow_succ (10 : Int) k ▸ pow_dvd_pow 10 hk).trans
      (Int.dvd_of_emod_eq_zero (Int.emod_eq_emod_iff_emod_sub_eq_zero.mp h))
  have hv : v = w + 10 ^ k * (10 * q) := by rw [← mul_assoc, ← hq]; omega
  rw [hv, Int.add_mul_ediv_left _ _ (by positivity)]
  omega

/-- Values that agree in at least two low digits agree in the opcode (R61). -/
theorem emod_100_eq_of_emod_eq (hl : 2 ≤ l) (h : v % 10 ^ l = w % 10 ^ l) : v % 100 = w % 100 := by
  have hdvd : (100 : Int) ∣ 10 ^ l := pow_dvd_pow (10 : Int) hl
  rw [← Int.emod_emod_of_dvd v hdvd, h, Int.emod_emod_of_dvd w hdvd]

theorem Instr.one_le_length (i : Instr) : 1 ≤ i.length := by cases i <;> simp [Instr.length]

/-- Settles O4: the opcode and each mode digit the instruction has lie below digit `length + 1`. -/
theorem onlyOwnDigitsMatter : Obligations.OnlyOwnDigitsMatter := by
  intro nd x y i hx hy hdecode hagree
  rw [decode_of_floored (.inl hx)] at hdecode
  obtain rfl := Except.ok.inj hdecode
  have hop := emod_100_eq_of_emod_eq (Nat.succ_le_succ (Instr.one_le_length _)) hagree
  rw [decode_of_floored (.inl hy), ← hop]
  refine congrArg _ (instrOfFields_congr ?_ ?_ ?_).symm
  all_goals exact fun hlength => congrArg modeOfDigit (digit_eq_of_emod_eq (by omega) hagree)

/-- Settles O5: the settings differ on a negative word only; `FLOOR` reads its floored digits. -/
theorem negativeWordsFollowNegDecode : Obligations.NegativeWordsFollowNegDecode := by
  intro x hneg
  refine ⟨decode_trunc_of_neg hneg, decode_eq_error_iff.mpr ⟨rfl, hneg, rfl⟩, fun y hy hagree => ?_⟩
  have hdigits : y.toInt % 10 ^ 5 = x.toInt % 10 ^ 5 := hagree
  rw [decode_of_floored (.inr rfl), decode_of_floored (.inl hy), emod_100_eq_of_emod_eq (by omega) hdigits,
    digit_eq_of_emod_eq (k := 2) (by omega) hdigits, digit_eq_of_emod_eq (k := 3) (by omega) hdigits,
    digit_eq_of_emod_eq (k := 4) (by omega) hdigits]

/-- Settles O1: each word is evaluated. -/
theorem sampleWordsDecode : Obligations.SampleWordsDecode := by
  unfold Obligations.SampleWordsDecode
  decide

end Sys2Proof
end

section
/-! PROOFS. Reads of memory and of operands (20_memory.md R41; 30_encoding.md R67, R69), placed instructions, and the
image format (70_reset_and_hazards.md R232). -/

namespace Sys2Proof.Machine

variable {s : State} {c nbits w n k a b : Nat} {m : Memory}

/-- Settles O7: the bounds check decides between the cell and the fault, and a loaded image reads as its words. -/
theorem memReadChecksBounds : Obligations.MemReadChecksBounds := by
  refine ⟨fun s kind i a => ⟨fun hin => memRead_eq_ok_iff.mpr ⟨hin, rfl⟩,
    fun hout => memRead_eq_error_iff.mpr ⟨hout, rfl⟩⟩, fun s words k => ?_⟩
  simpa using Memory.get_ofWords 0 k words

/-- Settles O9: each mode has its own row of R67, and the relative address is the wrapped sum of R69. -/
theorem readOperandByMode : Obligations.ReadOperandByMode := by
  intro s i raw
  have hrelative : readOperand s i .relative raw = memRead s .read i (wrap64 (s.rb.toInt + raw.toInt)) := by
    rw [← relativeAddress_eq_wrap64, readOperand]
  exact ⟨rfl, rfl, hrelative, fun _ => rfl⟩

theorem InBounds.cellOf_lt {x : Word} (h : InBounds c x) : cellOf x < c := by
  obtain ⟨hnonneg, hlt⟩ := h
  simp only [cellOf]
  omega

/-- Placing words at `a` and above leaves the cells below alone. -/
theorem Memory.get_placeWords_of_lt (h : b < a) : (Memory.placeWords c nbits w n k a m).get b = m.get b := by
  induction n generalizing k a m with
  | zero => rfl
  | succ n ih =>
    rw [Memory.placeWords, ih (by omega)]
    split
    · exact Memory.get_set_of_ne m _ (by omega)
    · rfl

/-- The first placed word is read back at the place. -/
theorem Memory.get_placeWords_self (ha : a < c) (hm : m.wf = true) :
    (Memory.placeWords c nbits w (n + 1) k a m).get a = tableWord nbits w k := by
  rw [Memory.placeWords, Memory.get_placeWords_of_lt (by omega), if_pos ha, Memory.get_set_self a _ hm]

/-- The place is a cell: `pc`, or 0, which every capacity of R6 has. -/
theorem fetchPlace_inBounds (hc : s.config.wf = true) : InBounds s.config.capacity (fetchPlace s) := by
  unfold fetchPlace
  split
  · assumption
  · simp only [Config.wf, decide_eq_true_eq] at hc
    exact ⟨by decide, by simp; omega⟩

/-- Settles O46: the placed word lies below the fetch limit, in the cell the fetch reads. -/
theorem placedInstructionRunsNext : Obligations.PlacedInstructionRunsNext := by
  intro s nbits w i hc hm hdecode
  have hin := fetchPlace_inBounds hc
  have hcell := hin.cellOf_lt
  refine step_eq_exec rfl ?belowLimit (fetchInstruction_eq_ok_iff.mpr ⟨hin, ?decodes⟩)
  case belowLimit =>
    change (fetchPlace s).toInt <
      ((max s.loadedLength (min s.config.capacity (cellOf (fetchPlace s) + maxInstrWords)) : Nat) : Int)
    simp only [cellOf, maxInstrWords] at hcell ⊢
    omega
  case decodes =>
    have hword : (s.withFetchWord nbits w).mem.get (cellOf (fetchPlace s)) = tableWord nbits w 0 :=
      Memory.get_placeWords_self hcell hm
    exact hword ▸ hdecode

/-- Byte `j` of word `k` of an image is byte `8k + j` of the image (R232). -/
theorem imageValue_byte (bytes : List Byte) {k j : Nat} (hj : j < 8) :
    imageValue bytes k / 256 ^ j % 256 = (bytes.getD (8 * k + j) 0).toNat := by
  rw [imageValue, littleEndian_byte]
  simp [List.getD_eq_getElem?_getD, hj]

/-- Eight bytes fit a word, so no bit of `u_k` is lost. -/
theorem imageValue_lt (bytes : List Byte) (k : Nat) : imageValue bytes k < 2 ^ 64 := by
  have h := littleEndian_lt ((List.range 8).map fun j => bytes.getD (8 * k + j) 0)
  rw [List.length_map, List.length_range] at h
  exact h

/-- Settles O48: a word is the sum of its eight bytes by powers of 256, from which each byte is read back. -/
theorem imageIsLittleEndianWords : Obligations.ImageIsLittleEndianWords := by
  intro bytes
  refine ⟨imageWords_length bytes, fun k j hk hj => ?_⟩
  rw [imageWords_getD hk, BitVec.toNat_ofNat, Nat.mod_eq_of_lt (imageValue_lt bytes k), imageValue_byte bytes hj]

end Sys2Proof.Machine
end

section
/-! PROOFS. ADD, MUL, LT and EQ (41_alu.md): the arithmetic of both overflow policies, the comparisons, completion,
and the order of faults. -/

namespace Sys2Proof.Machine

variable {s : State} {i : Instr} {m1 m2 m3 : Mode} {a b v dest : Word} {e : FaultInfo} {r : Int}
  {policy : OverflowPolicy}

theorem wrap64_toInt_of_inI64 (h : InI64 r) : (wrap64 r).toInt = r := by
  obtain ⟨hlow, hhigh⟩ := h
  rw [wrap64, BitVec.toInt_ofInt, Int.bmod_eq_of_le] <;> omega

/-- R100: a result is narrowed to its wrapped word, or, outside `i64` under `FAULT`, to `ArithmeticOverflow`. -/
theorem narrow_eq_error_iff : narrow policy r = .error e ↔ policy = .fault ∧ ¬ InI64 r ∧ e = arithmeticOverflow := by
  by_cases hr : InI64 r
  · rw [narrow.eq_def, if_pos hr]
    exact ⟨fun h => (nomatch h), fun h => absurd hr h.2.1⟩
  · rw [narrow.eq_def, if_neg hr, and_iff_right hr]
    cases policy <;> simp [eq_comm]

theorem narrow_eq_ok_iff : narrow policy r = .ok v ↔ ¬ (policy = .fault ∧ ¬ InI64 r) ∧ v = wrap64 r := by
  by_cases hr : InI64 r
  · rw [narrow.eq_def, if_pos hr, and_iff_right fun h => h.2 hr, Except.ok.injEq, eq_comm]
  · rw [narrow.eq_def, if_neg hr, and_iff_left hr]
    cases policy <;> simp [eq_comm]

/-- Settles O16: the wrapped integer sum and product are the word sum and product, and `narrow` says when they fault. -/
theorem overflowPolicyLaws : Obligations.OverflowPolicyLaws := by
  intro a b
  have hexact (r : Int) (policy : OverflowPolicy) (v : Word) (h : narrow policy r = .ok v) (hr : InI64 r) :
      v.toInt = r := by
    rw [(narrow_eq_ok_iff.mp h).2, wrap64_toInt_of_inI64 hr]
  have hfaults (r : Int) : narrow .fault r = .error arithmeticOverflow ↔ ¬ InI64 r := by simp [narrow_eq_error_iff]
  refine ⟨narrow_eq_ok_iff.mpr ⟨by simp, ?_⟩, narrow_eq_ok_iff.mpr ⟨by simp, ?_⟩, hfaults _, hfaults _,
    hexact _, hexact _⟩
  · rw [wrap64, BitVec.ofInt_add, BitVec.ofInt_toInt, BitVec.ofInt_toInt]
  · rw [wrap64, BitVec.ofInt_mul, BitVec.ofInt_toInt, BitVec.ofInt_toInt]

theorem truth_eq_zero_or_one (p : Prop) [Decidable p] : truth p = 0 ∨ truth p = 1 := by
  unfold truth
  split <;> simp

/-- Settles O17: the signed order of two words is `<`, `>` or equality of the integers they hold. -/
theorem comparisonTrichotomy : Obligations.ComparisonTrichotomy := by
  intro a b
  refine ⟨truth_eq_zero_or_one _, truth_eq_zero_or_one _, ?_⟩
  simp only [aluLt, aluEq, truth, ← BitVec.toInt_inj]
  rcases Int.lt_trichotomy a.toInt b.toInt with h | h | h
  · simp [h, Int.lt_asymm h, Int.ne_of_lt h]
  · simp [h]
  · simp [h, Int.lt_asymm h, Int.ne_of_gt h]

/-- Each `F3` instruction is `exec_F3` (R101) with an ALU function `f` that overflows exactly as `Overflows` says and
otherwise answers what `Computes` says. -/
theorem exec_of_isF3 (h : IsF3 i m1 m2 m3) :
    ∃ f, exec i s = finish s (resultF3 f m1 m2 m3 s) ∧ ∀ a b,
      (Overflows s i a b ∧ f a b = .error arithmeticOverflow) ∨
      (¬ Overflows s i a b ∧ ∃ v, Computes i a b v ∧ f a b = .ok v) := by
  have hnarrow (r : Int) :
      ((s.config.overflowPolicy = .fault ∧ ¬ InI64 r) ∧ narrow s.config.overflowPolicy r = .error arithmeticOverflow) ∨
      (¬ (s.config.overflowPolicy = .fault ∧ ¬ InI64 r) ∧
        ∃ v, v = BitVec.ofInt 64 r ∧ narrow s.config.overflowPolicy r = .ok v) := by
    by_cases hover : s.config.overflowPolicy = .fault ∧ ¬ InI64 r
    · exact .inl ⟨hover, narrow_eq_error_iff.mpr ⟨hover.1, hover.2, rfl⟩⟩
    · exact .inr ⟨hover, _, rfl, narrow_eq_ok_iff.mpr ⟨hover, rfl⟩⟩
  rcases h with rfl | rfl | rfl | rfl
  · exact ⟨_, rfl, fun a b => hnarrow (a.toInt + b.toInt)⟩
  · exact ⟨_, rfl, fun a b => hnarrow (a.toInt * b.toInt)⟩
  · exact ⟨_, rfl, fun a b => .inr ⟨fun h => h.2, _, rfl, rfl⟩⟩
  · refine ⟨_, rfl, fun a b => .inr ⟨fun h => h.2, aluEq a b, ?_, rfl⟩⟩
    simp only [Computes, aluEq, truth, BitVec.toInt_inj]

theorem computes_unique {v' : Word} (h : Computes i a b v) (h' : Computes i a b v') : v = v' := by
  cases i with
  | add | mul | lt | eq => exact h.trans h'.symm
  | inp | out | jit | jif | arb | halt | unrecognized => exact h.elim

/-- Completion of the `F3` instructions (R101): one store of the word computed, `pc + 4`. -/
theorem exec_f3_completes (hi : IsF3 i m1 m2 m3) (ha : Reads s 1 m1 a) (hb : Reads s 2 m2 b) (hd : Names s 3 m3 dest)
    (hin : InBounds s.config.capacity dest) (hno : ¬ Overflows s i a b) (hv : Computes i a b v) :
    exec i s = .next ((s.setMem (s.mem.set (cellOf dest) v)).advance 4) := by
  obtain ⟨f, hexec, hf⟩ := exec_of_isF3 (s := s) hi
  obtain ⟨v', hv', hfv⟩ := ((hf a b).resolve_left fun h => hno h.1).2
  obtain rfl := computes_unique hv hv'
  rw [hexec, resultF3_eq_ok_iff.mpr ⟨a, b, dest, v, ha, hb, hd, hfv, hin, rfl⟩, finish]

/-- R100: under `WRAP`, and for a result in `i64`, nothing overflows. -/
theorem not_overflow_of_wrap_or_inI64 (h : policy = .wrap ∨ InI64 r) : ¬ (policy = .fault ∧ ¬ InI64 r) := by
  rintro ⟨rfl, hout⟩
  exact hout (h.resolve_left (by simp))

/-- Settles O11: the completion of the `F3` instructions, for the sum. -/
theorem addStoresSum : Obligations.AddStoresSum :=
  fun _ _ _ _ _ _ _ ha hb hd hin hfits =>
    exec_f3_completes (.inl rfl) ha hb hd hin (not_overflow_of_wrap_or_inI64 hfits) rfl

/-- Settles O12: the completion of the `F3` instructions, for the product. -/
theorem mulStoresProduct : Obligations.MulStoresProduct :=
  fun _ _ _ _ _ _ _ ha hb hd hin hfits =>
    exec_f3_completes (.inr (.inl rfl)) ha hb hd hin (not_overflow_of_wrap_or_inI64 hfits) rfl

/-- Settles O13: a comparison never overflows. -/
theorem ltStoresComparison : Obligations.LtStoresComparison :=
  fun _ _ _ _ _ _ _ ha hb hd hin => exec_f3_completes (.inr (.inr (.inl rfl))) ha hb hd hin (fun h => h.2) rfl

/-- Settles O14: a comparison never overflows. -/
theorem eqStoresComparison : Obligations.EqStoresComparison :=
  fun _ _ _ _ _ _ _ ha hb hd hin => exec_f3_completes (.inr (.inr (.inr rfl))) ha hb hd hin (fun h => h.2) rfl

/-- An instruction that raises `e` before any port transaction takes fault entry with it (R205). -/
theorem finish_of_error {x : Except FaultInfo State} (h : x = .error e) : finish s x = .next (faulted s e) := by
  rw [h, finish, enterFault_eq_faulted]

/-- Settles O15: the access order of R206 is the order of `resultF3`'s faults. -/
theorem f3FaultsInOrder : Obligations.F3FaultsInOrder := by
  intro s i m1 m2 m3 hi
  obtain ⟨f, hexec, hf⟩ := exec_of_isF3 (s := s) hi
  have hfault {e : FaultInfo} (h : resultF3 f m1 m2 m3 s = .error e) : exec i s = .next (faulted s e) :=
    hexec.trans (finish_of_error h)
  refine ⟨fun e h1 => hfault ?_, fun a e ha h2 => hfault ?_, fun a b e ha hb h3 => hfault ?_,
    fun a b dest ha hb hd hover => hfault ?_, fun a b dest ha hb hd hno hout => hfault ?_⟩
  all_goals rw [resultF3_eq_error_iff]
  · exact .inl h1
  · exact .inr (.inl ⟨a, ha, h2⟩)
  · exact .inr (.inr ⟨a, b, ha, hb, .inl h3⟩)
  · have hfab := ((hf a b).resolve_right fun h => h.1 hover).2
    exact .inr (.inr ⟨a, b, ha, hb, .inr ⟨dest, hd, .inl hfab⟩⟩)
  · obtain ⟨v, _, hfab⟩ := ((hf a b).resolve_left fun h => hno h.1).2
    exact .inr (.inr ⟨a, b, ha, hb, .inr ⟨dest, hd, .inr ⟨v, hfab, hout, rfl⟩⟩⟩)

end Sys2Proof.Machine
end

section
/-! PROOFS. IN and OUT (42_io.md): what a port answers, completion, faults, and the wait. -/

namespace Sys2Proof.Machine

variable {s : State} {m1 : Mode} {a v dest : Word} {e : FaultInfo} {mode : IoMode} {eof : Word}

/-! ## The ports' answers -/

theorem InputItem.answer_datum_of_inI64 {n : Int} (h : InI64 n) :
    (InputItem.datum n).answer = .value (BitVec.ofInt 64 n) := if_pos h

/-- R122: what the adapter cannot deliver as a word is a `Fault`. -/
theorem InputItem.answer_of_undeliverable {item : InputItem}
    (h : item = .malformed ∨ item = .unreadable ∨ ∃ n, item = .datum n ∧ ¬ InI64 n) : item.answer = .fault := by
  rcases h with rfl | rfl | ⟨n, rfl, hn⟩
  · rfl
  · rfl
  · exact if_neg hn

theorem InputPort.request_of_cons {p : InputPort} {item : InputItem} {rest : List InputItem}
    (h : p.items = item :: rest) : p.request mode eof = some (item.answer, { p with items := rest }) := by
  simp only [InputPort.request, h]

theorem InputPort.request_at_end {p : InputPort} (h : p.items = []) (hend : p.ended = true) :
    p.request mode eof = some (endOfStreamAnswer mode eof, p) := by
  simp only [InputPort.request, h, hend, if_true]

/-- R125: the input port has not answered exactly while no item has arrived and the stream has not ended. -/
theorem InputPort.request_eq_none_iff {p : InputPort} :
    p.request mode eof = none ↔ p.items = [] ∧ p.ended = false := by
  unfold InputPort.request
  split
  · simp [*]
  · simp [*]

theorem OutputPort.request_of_cons {p : OutputPort} {answer : OutputAnswer} {rest : List OutputAnswer}
    (h : p.answers = answer :: rest) : p.request = some (answer, { p with answers := rest }) := by
  simp only [OutputPort.request, h]

theorem OutputPort.request_of_takesAll {p : OutputPort} (h : p.answers = []) (hall : p.takesAll = true) :
    p.request = some (.ok, p) := by
  simp only [OutputPort.request, h, hall, if_true]

/-- R125: the output port has not answered exactly when its answers are used up and it takes no more. -/
theorem OutputPort.request_eq_none_iff {p : OutputPort} :
    p.request = none ↔ p.answers = [] ∧ p.takesAll = false := by
  unfold OutputPort.request
  split
  · simp [*]
  · simp [*]

/-! ## IN, by what its port answers -/

theorem exec_inp_of_operandFaults (h : OperandFaults s 1 e) : exec (.inp m1) s = .next (faulted s e) := by
  simp only [exec, execIn, destination_eq_error_iff.mpr h, enterFault_eq_faulted]

theorem exec_inp_of_port_fault {p : InputPort} (hd : Names s 1 m1 dest)
    (hp : s.input.request s.ioMode s.config.eofSentinel = some (.fault, p)) :
    exec (.inp m1) s = .next (faulted (s.setInput p) (ioFault .input)) := by
  simp only [exec, execIn, destination_eq_ok_iff.mpr hd, hp, enterFault_eq_faulted]

theorem exec_inp_of_value {p : InputPort} (hd : Names s 1 m1 dest)
    (hp : s.input.request s.ioMode s.config.eofSentinel = some (.value v, p)) :
    exec (.inp m1) s = storeInput dest v (s.setInput p) := by
  simp only [exec, execIn, destination_eq_ok_iff.mpr hd, hp]

/-- Completion of IN (R126): the delivered word is consumed and stored, `pc + 2`. -/
theorem exec_inp_completes {p : InputPort} (hd : Names s 1 m1 dest) (hin : InBounds s.config.capacity dest)
    (hp : s.input.request s.ioMode s.config.eofSentinel = some (.value v, p)) :
    exec (.inp m1) s = .next ((((s.setInput p).consume v).setMem (s.mem.set (cellOf dest) v)).advance 2) := by
  rw [exec_inp_of_value hd hp]
  exact ((storeInput_cases (s := s.setInput p)).resolve_right fun h => h.1 hin).2

/-- A destination that is no cell faults after the item has been consumed (R126, decision D17). -/
theorem exec_inp_of_outOfBounds {p : InputPort} (hd : Names s 1 m1 dest) (hout : ¬ InBounds s.config.capacity dest)
    (hp : s.input.request s.ioMode s.config.eofSentinel = some (.value v, p)) :
    exec (.inp m1) s = .next (faulted ((s.setInput p).consume v) (memoryFault .write 1 dest)) := by
  rw [exec_inp_of_value hd hp]
  exact ((storeInput_cases (s := s.setInput p)).resolve_left fun h => hout h.1).2

/-- Settles O18: the first item in `i64` is the word the port answers. -/
theorem inStoresInput : Obligations.InStoresInput := by
  intro s m1 dest n rest hd hin hitems hn
  have hp := InputPort.request_of_cons (mode := s.ioMode) (eof := s.config.eofSentinel) hitems
  rw [InputItem.answer_datum_of_inI64 hn] at hp
  exact exec_inp_completes hd hin hp

/-- Settles O19: the answer at end of stream is the sentinel in `CHAR` mode and a `Fault` in `DECIMAL` mode. -/
theorem inAtEndOfStream : Obligations.InAtEndOfStream := by
  intro s m1 dest hd hitems hended
  have hp := InputPort.request_at_end (mode := s.ioMode) (eof := s.config.eofSentinel) hitems hended
  refine ⟨fun hmode hin => ?_, fun hmode => ?_⟩
  · exact exec_inp_completes hd hin (hp.trans (by rw [hmode, endOfStreamAnswer]))
  · exact exec_inp_of_port_fault hd (hp.trans (by rw [hmode, endOfStreamAnswer]))

/-- Settles O20: the operand fetch precedes the request, the request the write. -/
theorem inFaults : Obligations.InFaults := by
  intro s m1
  refine ⟨fun e he => exec_inp_of_operandFaults he, fun dest item rest hd hitems hbad => ?_,
    fun dest n rest hd hout hitems hn => ?_, fun dest hd hout hitems hended hmode => ?_⟩
  · have hp := InputPort.request_of_cons (mode := s.ioMode) (eof := s.config.eofSentinel) hitems
    rw [InputItem.answer_of_undeliverable hbad] at hp
    exact exec_inp_of_port_fault hd hp
  · have hp := InputPort.request_of_cons (mode := s.ioMode) (eof := s.config.eofSentinel) hitems
    rw [InputItem.answer_datum_of_inI64 hn] at hp
    exact exec_inp_of_outOfBounds hd hout hp
  · have hp := InputPort.request_at_end (mode := s.ioMode) (eof := s.config.eofSentinel) hitems hended
    exact exec_inp_of_outOfBounds hd hout (hp.trans (by rw [hmode, endOfStreamAnswer]))

/-! ## OUT, by what its port answers -/

theorem exec_out_of_sourceFaults (h : SourceFaults s 1 m1 e) : exec (.out m1) s = .next (faulted s e) := by
  simp only [exec, execOut, source_eq_error_iff.mpr h, enterFault_eq_faulted]

theorem exec_out_of_port_fault {p : OutputPort} (ha : Reads s 1 m1 a) (hp : s.outPort.request = some (.fault, p)) :
    exec (.out m1) s = .next (faulted (s.setOutPort p) (ioFault .output)) := by
  simp only [exec, execOut, source_eq_ok_iff.mpr ha, hp, enterFault_eq_faulted]

/-- Completion of OUT (R127): the word is emitted, `pc + 2`. -/
theorem exec_out_completes {p : OutputPort} (ha : Reads s 1 m1 a) (hp : s.outPort.request = some (.ok, p)) :
    exec (.out m1) s = .next (((s.setOutPort p).emit a).advance 2) := by
  simp only [exec, execOut, source_eq_ok_iff.mpr ha, hp]

/-- Settles O21: the port answers `Ok` by its next answer, or because it takes everything. -/
theorem outEmitsWord : Obligations.OutEmitsWord :=
  fun _ _ _ ha => ⟨fun _ hanswers => exec_out_completes ha (OutputPort.request_of_cons hanswers),
    fun hanswers hall => exec_out_completes ha (OutputPort.request_of_takesAll hanswers hall)⟩

/-- Settles O22: the operand precedes the request, and only an `Ok` emits. -/
theorem outFaults : Obligations.OutFaults :=
  fun _ _ => ⟨fun _ he => exec_out_of_sourceFaults he,
    fun _ _ ha hanswers => exec_out_of_port_fault ha (OutputPort.request_of_cons hanswers)⟩

/-! ## The wait -/

/-- Settles O23: IN and OUT whose port answers nothing stop, and the step is the instruction. -/
theorem portWaitHasNoStep : Obligations.PortWaitHasNoStep := by
  intro s m1 hrunning hlimit
  refine ⟨fun dest hfetch hd hitems hended => ?_, fun a hfetch ha hanswers hall => ?_⟩
  · rw [step_eq_exec hrunning hlimit hfetch]
    exact execIn_eq_fault_iff.mpr ⟨⟨dest, hd⟩, InputPort.request_eq_none_iff.mpr ⟨hitems, hended⟩, rfl⟩
  · rw [step_eq_exec hrunning hlimit hfetch]
    exact execOut_eq_fault_iff.mpr ⟨⟨a, ha⟩, OutputPort.request_eq_none_iff.mpr ⟨hanswers, hall⟩, rfl⟩

end Sys2Proof.Machine
end

section
/-! PROOFS. Jumps, ARB and HALT (43_jumps.md, 44_relative_base.md, 45_halt_and_unrecognized.md). -/

namespace Sys2Proof.Machine

variable {s t : State} {m1 m2 : Mode} {a b : Word} {e : FaultInfo} {as : List Word}

/-- R140, R141: a jump whose operands are read goes to operand 2 or to the next instruction. -/
theorem finish_resultJump {taken : Word → Bool} (ha : Reads s 1 m1 a) (hb : Reads s 2 m2 b) :
    finish s (resultJump taken m1 m2 s) = .next (if taken a then s.jump b else s.advance 3) :=
  finish_eq_next_iff.mpr (.inl (resultJump_eq_ok_iff.mpr ⟨a, b, ha, hb, rfl⟩))

theorem toInt_eq_zero_iff : a.toInt = 0 ↔ a = 0 := by
  rw [← BitVec.toInt_zero (w := 64), BitVec.toInt_inj]
  rfl

/-- Settles O25: JIT is the jump taken on a word other than 0. -/
theorem jitJumpsWhenNonzero : Obligations.JitJumpsWhenNonzero := by
  intro s m1 m2 a b ha hb
  refine ⟨fun hne => (finish_resultJump ha hb).trans ?_, fun hzero => (finish_resultJump ha hb).trans ?_⟩
  · rw [if_pos (decide_eq_true (mt toInt_eq_zero_iff.mpr hne)), State.jump]
  · rw [if_neg (by simp [toInt_eq_zero_iff.mp hzero])]
    rfl

/-- Settles O26: JIF is the jump taken on 0. -/
theorem jifJumpsWhenZero : Obligations.JifJumpsWhenZero := by
  intro s m1 m2 a b ha hb
  refine ⟨fun hzero => (finish_resultJump ha hb).trans ?_, fun hne => (finish_resultJump ha hb).trans ?_⟩
  · rw [if_pos (decide_eq_true (toInt_eq_zero_iff.mp hzero)), State.jump]
  · rw [if_neg (by simpa using mt toInt_eq_zero_iff.mpr hne)]
    rfl

/-- Settles O27: both operands are resolved before the jump is decided. -/
theorem jumpOperandsAreEager : Obligations.JumpOperandsAreEager := by
  intro s i m1 m2 hi
  have hfault (e : FaultInfo) (h : SourceFaults s 1 m1 e ∨ ∃ a, Reads s 1 m1 a ∧ SourceFaults s 2 m2 e) :
      exec i s = .next (faulted s e) := by
    rcases hi with rfl | rfl
    · exact finish_of_error (resultJump_eq_error_iff.mpr h)
    · exact finish_of_error (resultJump_eq_error_iff.mpr h)
  exact ⟨fun e h1 => hfault e (.inl h1), fun a e ha h2 => hfault e (.inr ⟨a, ha, h2⟩)⟩

/-- Completion of ARB (R150): the operand is read through the old `rb`. -/
theorem exec_arb_completes (ha : Reads s 1 m1 a) : exec (.arb m1) s = .next ((s.setRb (s.rb + a)).advance 2) :=
  finish_eq_next_iff.mpr (.inl (resultArb_eq_ok_iff.mpr ⟨a, ha, rfl⟩))

/-- Settles O28: the word sum `rb + a` is the wrapped integer sum, as in a relative address. -/
theorem arbAddsToRelativeBase : Obligations.ArbAddsToRelativeBase := by
  intro s m1
  refine ⟨fun a ha => ?_, fun e he => finish_of_error (resultArb_eq_error_iff.mpr he)⟩
  have hsum : s.rb + a = wrap64 (s.rb.toInt + a.toInt) := relativeAddress_eq_wrap64 s a
  rw [exec_arb_completes ha, hsum]
  rfl

/-- R151 on words: each ARB of a run adds its operand to `rb`. -/
theorem ArbRun.rb_eq (h : ArbRun s as t) : t.rb = s.rb + as.sum := by
  induction h with
  | nil s => simp
  | cons ha hexec _ ih =>
    obtain rfl := Host.Outcome.next.inj ((exec_arb_completes ha).symm.trans hexec)
    rw [ih, List.sum_cons, State.advance_rb, State.setRb_rb, add_assoc]

theorem ofInt_sum_toInt (as : List Word) : BitVec.ofInt 64 (as.map BitVec.toInt).sum = as.sum := by
  induction as with
  | nil => rfl
  | cons a as ih => rw [List.map_cons, List.sum_cons, BitVec.ofInt_add, BitVec.ofInt_toInt, ih, List.sum_cons]

/-- Settles O29: wrapping once at the end is wrapping at every ARB. -/
theorem relativeBaseIsSumOfOperands : Obligations.RelativeBaseIsSumOfOperands := by
  intro s t as h
  rw [h.rb_eq, BitVec.ofInt_add, BitVec.ofInt_toInt, ofInt_sum_toInt]

/-- Settles O31: HALT is the transition of `run_state` alone (R160). -/
theorem haltEntersHaltedNormal : Obligations.HaltEntersHaltedNormal := fun _ => rfl

end Sys2Proof.Machine
end

section
/-! PROOFS. What any instruction changes and leaves unchanged: one frame for all of `exec`, and the frames and the
precision of faults that follow from it (10_state.md, 60_exceptions.md section 2). -/

namespace Sys2Proof.Machine

variable {s t u : State} {i : Instr} {m1 m2 m3 : Mode} {e : FaultInfo} {k : Nat}

/-! ## The frame of an instruction -/

/-- What fault entry leaves of the state before the instruction, and what it records (R205; decisions D11, D17). -/
structure FaultTaken (i : Instr) (s t : State) : Prop where
  runState : t.runState = .haltedFault
  pc : t.pc = s.pc
  rb : t.rb = s.rb
  mem : t.mem = s.mem
  output : t.output = s.output
  faultPc : t.fault.pc = s.pc
  cause : t.fault.cause ≠ .none
  consumed : t.consumed = s.consumed ∨
    (∃ m v, i = .inp m ∧ t.consumed = s.consumed ++ [v]) ∧ t.fault.cause = .memoryFault ∧ t.fault.kind = .write

/-- What every next state `t` of instruction `i` keeps of `s`, and the few ways it can differ. -/
structure ExecFrame (i : Instr) (s t : State) : Prop where
  config : t.config = s.config
  ioMode : t.ioMode = s.ioMode
  loadedLength : t.loadedLength = s.loadedLength
  host : t.host = s.host
  /-- Input is taken from the front of the stream, whose end is sticky (log 10). -/
  input : t.input.items <:+ s.input.items ∧ t.input.ended = s.input.ended
  rb : (∀ m, i ≠ .arb m) → t.rb = s.rb
  mem : t.mem = s.mem ∨
    ∃ dest v, StoresAt s i dest ∧ InBounds s.config.capacity dest ∧ t.mem = s.mem.set (cellOf dest) v
  status : (t.runState = s.runState ∧ t.fault = s.fault) ∨ (i = .halt ∧ t = s.halt .haltedNormal) ∨ FaultTaken i s t

theorem InputPort.request_keeps {p q : InputPort} {mode : IoMode} {eof : Word} {answer : InputAnswer}
    (h : p.request mode eof = some (answer, q)) : q.items <:+ p.items ∧ q.ended = p.ended := by
  unfold InputPort.request at h
  split at h
  · rename_i item rest hitems
    cases h
    exact ⟨hitems ▸ List.suffix_cons item rest, rfl⟩
  · split at h
    · cases h
      exact ⟨List.suffix_refl _, rfl⟩
    · cases h

/-- Fault entry from a state `u` that differs from `s` in the ports alone, the consumed input included if a write of
IN faulted. -/
theorem ExecFrame.of_enterFault (hu : ∃ p q c, u = { s with input := p, outPort := q, consumed := c })
    (hinput : u.input.items <:+ s.input.items ∧ u.input.ended = s.input.ended) (hcause : e.cause ≠ .none)
    (hconsumed : u.consumed = s.consumed ∨
      (∃ m v, i = .inp m ∧ u.consumed = s.consumed ++ [v]) ∧ e.cause = .memoryFault ∧ e.kind = .write) :
    ExecFrame i s (u.enterFault e) := by
  obtain ⟨p, q, c, rfl⟩ := hu
  have hfault : FaultTaken i s (State.enterFault { s with input := p, outPort := q, consumed := c } e) :=
    ⟨rfl, rfl, rfl, rfl, rfl, rfl, hcause, hconsumed⟩
  exact ⟨rfl, rfl, rfl, rfl, hinput, fun _ => rfl, .inl rfl, .inr (.inr hfault)⟩

theorem execIn_frame (h : execIn m1 s = .next t) : ExecFrame (.inp m1) s t := by
  rcases execIn_next_cases h with ⟨e, he, rfl⟩ | ⟨dest, hd, ⟨p, hp, rfl⟩ | ⟨v, p, hp, hin, rfl⟩ | ⟨v, p, hp, hout, rfl⟩⟩
  · obtain ⟨_, rfl⟩ := he
    exact .of_enterFault ⟨_, _, _, rfl⟩ ⟨List.suffix_refl _, rfl⟩ (by simp) (.inl rfl)
  · exact .of_enterFault ⟨_, _, _, rfl⟩ (InputPort.request_keeps hp) (by simp [ioFault]) (.inl rfl)
  · exact ⟨rfl, rfl, rfl, rfl, InputPort.request_keeps hp, fun _ => rfl, .inr ⟨dest, v, hd, hin, rfl⟩, .inl ⟨rfl, rfl⟩⟩
  · exact .of_enterFault ⟨_, _, _, rfl⟩ (InputPort.request_keeps hp) (by simp [memoryFault])
      (.inr ⟨⟨m1, v, rfl, rfl⟩, rfl, rfl⟩)

theorem execOut_frame (h : execOut m1 s = .next t) : ExecFrame (.out m1) s t := by
  have hinput : s.input.items <:+ s.input.items ∧ s.input.ended = s.input.ended := ⟨List.suffix_refl _, rfl⟩
  rcases execOut_next_cases h with ⟨e, he, rfl⟩ | ⟨a, _, ⟨p, _, rfl⟩ | ⟨p, _, rfl⟩⟩
  · exact .of_enterFault ⟨_, _, _, rfl⟩ hinput (sourceFaults_cause_ne_none he) (.inl rfl)
  · exact .of_enterFault ⟨_, _, _, rfl⟩ hinput (by simp [ioFault]) (.inl rfl)
  · exact ⟨rfl, rfl, rfl, rfl, hinput, fun _ => rfl, .inl rfl, .inl ⟨rfl, rfl⟩⟩

/-- The destination of an `F3` instruction is operand 3 (R64). -/
theorem storesAt_of_isF3 {dest : Word} (hi : IsF3 i m1 m2 m3) : StoresAt s i dest ↔ Names s 3 m3 dest := by
  rcases hi with rfl | rfl | rfl | rfl <;> rfl

theorem isF3_ne (hi : IsF3 i m1 m2 m3) :
    (∀ m, i ≠ .arb m) ∧ (∀ m, i ≠ .inp m) ∧ (∀ m, i ≠ .out m) ∧ i ≠ .halt := by
  rcases hi with rfl | rfl | rfl | rfl <;> simp

/-- Every next state of every instruction lies in its frame. -/
theorem exec_frame (h : exec i s = .next t) : ExecFrame i s t := by
  have hinput : s.input.items <:+ s.input.items ∧ s.input.ended = s.input.ended := ⟨List.suffix_refl _, rfl⟩
  rcases exec_next_cases h with ⟨e, _, _, hcause, rfl⟩ | ⟨m1, m2, m3, v, dest, hf3, hd, hin, rfl⟩ | ⟨m, rfl, hin⟩ |
    ⟨m, rfl, hout⟩ | ⟨_, _, b, hjump, rfl | rfl⟩ | ⟨m, a, rfl, rfl⟩ | ⟨rfl, rfl⟩ | ⟨op, rfl, rfl⟩
  · exact .of_enterFault ⟨_, _, _, rfl⟩ hinput hcause (.inl rfl)
  · exact ⟨rfl, rfl, rfl, rfl, hinput, fun _ => rfl, .inr ⟨dest, v, (storesAt_of_isF3 hf3).mpr hd, hin, rfl⟩,
      .inl ⟨rfl, rfl⟩⟩
  · exact execIn_frame hin
  · exact execOut_frame hout
  · exact ⟨rfl, rfl, rfl, rfl, hinput, fun _ => rfl, .inl rfl, .inl ⟨rfl, rfl⟩⟩
  · exact ⟨rfl, rfl, rfl, rfl, hinput, fun _ => rfl, .inl rfl, .inl ⟨rfl, rfl⟩⟩
  · exact ⟨rfl, rfl, rfl, rfl, hinput, fun hne => absurd rfl (hne m), .inl rfl, .inl ⟨rfl, rfl⟩⟩
  · exact ⟨rfl, rfl, rfl, rfl, hinput, fun _ => rfl, .inl rfl, .inr (.inl ⟨rfl, rfl⟩)⟩
  · exact ⟨rfl, rfl, rfl, rfl, hinput, fun _ => rfl, .inl rfl, .inl ⟨rfl, rfl⟩⟩

/-! ## What follows from it -/

/-- A cell that the destination does not name keeps its word (20_memory.md R42). -/
theorem ExecFrame.get_eq (h : ExecFrame i s t)
    (hspared : ∀ dest, StoresAt s i dest → InBounds s.config.capacity dest → k ≠ dest.toInt.toNat) :
    t.mem.get k = s.mem.get k := by
  rcases h.mem with hsame | ⟨dest, v, hd, hin, hset⟩
  · rw [hsame]
  · rw [hset]
    exact Memory.get_set_of_ne s.mem v (hspared dest hd hin).symm

theorem ExecFrame.status_of_ne_halt (h : ExecFrame i s t) (hi : i ≠ .halt) :
    (t.runState = s.runState ∧ t.fault = s.fault) ∨ (t.runState = .haltedFault ∧ t.pc = s.pc ∧ t.mem = s.mem) := by
  rcases h.status with hsame | ⟨hhalt, _⟩ | hfault
  · exact .inl hsame
  · exact absurd hhalt hi
  · exact .inr ⟨hfault.runState, hfault.pc, hfault.mem⟩

/-- Settles O32: the frame, with operand 3 for the destination. -/
theorem f3Frame : Obligations.F3Frame := by
  intro s t i m1 m2 m3 hi h
  have hframe := exec_frame h
  obtain ⟨hneArb, hneInp, hneOut, hneHalt⟩ := isF3_ne hi
  obtain ⟨hnotIn, hnotOut, _⟩ := onlyInAndOutUsePorts i s t h
  obtain ⟨hin, hconsumed⟩ := hnotIn hneInp
  obtain ⟨hout, houtput⟩ := hnotOut hneOut
  exact ⟨hframe.rb hneArb, hframe.config, hframe.ioMode, hframe.loadedLength, hin, hconsumed, hout, houtput,
    hframe.host, hframe.status_of_ne_halt hneHalt,
    fun k hspared => hframe.get_eq fun dest hd => hspared dest ((storesAt_of_isF3 hi).mp hd)⟩

/-- Settles O33: the frame, with operand 1 for the destination. -/
theorem inFrame : Obligations.InFrame := by
  intro s t m1 h
  have hframe := exec_frame h
  obtain ⟨hout, houtput⟩ := execIn_keeps_output h
  exact ⟨hframe.rb (by simp), hframe.config, hframe.ioMode, hframe.loadedLength, hout, houtput, hframe.host,
    hframe.input.2, hframe.status_of_ne_halt (by simp), fun k hspared => hframe.get_eq hspared⟩

/-- Settles O34: none of these instructions has a destination. -/
theorem nonStoringFrame : Obligations.NonStoringFrame := by
  intro s t i hi h
  have hframe := exec_frame h
  have hnone (dest : Word) : ¬ StoresAt s i dest := by
    rcases hi with ⟨_, rfl⟩ | ⟨_, _, rfl⟩ | ⟨_, _, rfl⟩ | ⟨_, rfl⟩ | rfl | ⟨_, rfl⟩ <;> exact id
  have hnotInp (m : Mode) : i ≠ .inp m := by
    rintro rfl
    simp at hi
  have hmem : t.mem = s.mem := hframe.mem.resolve_right fun ⟨dest, _, hd, _⟩ => hnone dest hd
  obtain ⟨hnotIn, hnotOut, _⟩ := onlyInAndOutUsePorts i s t h
  obtain ⟨hin, hconsumed⟩ := hnotIn hnotInp
  refine ⟨hmem, fun k => by rw [hmem], hframe.config, hframe.ioMode, hframe.loadedLength, hin, hconsumed, hframe.host,
    hframe.rb, hnotOut, ?_⟩
  rcases hframe.status with ⟨hrun, hfault⟩ | ⟨rfl, rfl⟩ | hfault
  · exact .inl ⟨hfault, fun _ => hrun⟩
  · exact .inl ⟨rfl, fun hne => absurd rfl hne⟩
  · exact .inr ⟨hfault.runState, hfault.pc, hfault.rb, hfault.output⟩

/-- Settles O35: of the frame's three endings only the fault is in `HaltedFault`. -/
theorem faultsArePrecise : Obligations.FaultsArePrecise := by
  intro i s t h hs
  have hframe := exec_frame h
  rcases hframe.status with ⟨hrun, hsame⟩ | ⟨_, rfl⟩ | hfault
  · exact ⟨fun ht => absurd (hrun.symm.trans ht) hs, fun _ => hsame⟩
  · exact ⟨fun ht => (nomatch ht), fun _ => rfl⟩
  · exact ⟨fun _ => ⟨hfault.pc, hfault.rb, hfault.mem, hframe.loadedLength, hfault.output, hfault.faultPc, hfault.cause,
      hfault.consumed⟩, fun ht => absurd hfault.runState ht⟩

end Sys2Proof.Machine
end

section
/-! PROOFS. Which fields an instruction does not read: one commuting lemma for other values of `rb`, `loaded_length` and
`io_mode` at once, and the law of `rb` that follows from it (10_state.md R23). -/

namespace Sys2Proof.Machine

variable {r : Word → Word} {n : Nat → Nat} {mo : IoMode → IoMode} {s t : State} {i : Instr} {k : Fin 4}
  {m m1 m2 m3 : Mode} {f : Word → Word → Except FaultInfo Word} {taken : Word → Bool}

/-- The state with other values of `rb`, `loaded_length` and `io_mode`; `id` keeps the value of a field. -/
def State.overlay (r : Word → Word) (n : Nat → Nat) (mo : IoMode → IoMode) (s : State) : State :=
  { s with rb := r s.rb, loadedLength := n s.loadedLength, ioMode := mo s.ioMode }

/-- The outcome with its next state changed by `g`. -/
def mapNext (g : State → State) : Result → Result
  | .next t => .next (g t)
  | .fault f => .fault f
  | .refused x => .refused x

/-- An operand in this mode is read the same with another `rb` (30_encoding.md R67). -/
theorem source_overlay (h : r = id ∨ Mode.readsNoRb m = true) : source (s.overlay r n mo) k m = source s k m := by
  rcases h with rfl | h
  · rfl
  · have hfetch : fetchOperand (s.overlay r n mo) k = fetchOperand s k := rfl
    unfold source
    rw [hfetch]
    cases fetchOperand s k with
    | error e => rfl
    | ok raw =>
      cases m with
      | position | immediate | unknown d => rfl
      | relative => cases h

/-- A position-mode destination names the same address with another `rb` (R68). -/
theorem destination_overlay (h : r = id ∨ m = .position) :
    destination (s.overlay r n mo) k m = destination s k m := by
  rcases h with rfl | rfl <;> rfl

theorem twoSources_overlay (h : r = id ∨ (Mode.readsNoRb m1 && Mode.readsNoRb m2) = true) :
    twoSources (s.overlay r n mo) m1 m2 = twoSources s m1 m2 := by
  rw [Bool.and_eq_true, or_and_left] at h
  obtain ⟨h1, h2⟩ := h
  unfold twoSources
  rw [source_overlay h1, source_overlay h2]

theorem finish_overlay (x : Except FaultInfo State) :
    finish (s.overlay r n mo) (x.map (State.overlay r n mo)) = mapNext (State.overlay r n mo) (finish s x) := by
  cases x <;> rfl

theorem resultF3_overlay (h : r = id ∨ (Mode.readsNoRb m1 && Mode.readsNoRb m2 && decide (m3 = .position)) = true) :
    resultF3 f m1 m2 m3 (s.overlay r n mo) = (resultF3 f m1 m2 m3 s).map (State.overlay r n mo) := by
  rw [Bool.and_eq_true, or_and_left, decide_eq_true_eq] at h
  obtain ⟨h12, h3⟩ := h
  unfold resultF3
  rw [twoSources_overlay h12, destination_overlay h3]
  cases twoSources s m1 m2 with
  | error e => rfl
  | ok ab =>
    cases destination s 3 m3 with
    | error e => rfl
    | ok dest =>
      dsimp only
      cases f ab.1 ab.2 with
      | error e => rfl
      | ok v =>
        have hwrite : memWrite (s.overlay r n mo) 3 dest v = memWrite s 3 dest v := rfl
        dsimp only
        rw [hwrite]
        cases memWrite s 3 dest v <;> rfl

theorem resultJump_overlay (h : r = id ∨ (Mode.readsNoRb m1 && Mode.readsNoRb m2) = true) :
    resultJump taken m1 m2 (s.overlay r n mo) = (resultJump taken m1 m2 s).map (State.overlay r n mo) := by
  unfold resultJump
  rw [twoSources_overlay h]
  cases twoSources s m1 m2 with
  | error e => rfl
  | ok ab =>
    dsimp only
    cases taken ab.1 <;> rfl

/-- ARB is the one instruction that writes `rb`, so it commutes with the other two fields alone. -/
theorem resultArb_overlay :
    resultArb m1 (s.overlay id n mo) = (resultArb m1 s).map (State.overlay id n mo) := by
  unfold resultArb
  rw [source_overlay (.inl rfl)]
  cases source s 1 m1 <;> rfl

theorem storeInput_overlay (dest v : Word) :
    storeInput dest v (s.overlay r n mo) = mapNext (State.overlay r n mo) (storeInput dest v s) := by
  have hwrite : memWrite ((s.overlay r n mo).consume v) 1 dest v = memWrite (s.consume v) 1 dest v := rfl
  unfold storeInput
  rw [hwrite]
  cases memWrite (s.consume v) 1 dest v <;> rfl

theorem execIn_overlay (h : r = id ∨ m1 = .position)
    (hport : s.input.request (mo s.ioMode) s.config.eofSentinel = s.input.request s.ioMode s.config.eofSentinel) :
    execIn m1 (s.overlay r n mo) = mapNext (State.overlay r n mo) (execIn m1 s) := by
  have hrequest : (s.overlay r n mo).input.request (s.overlay r n mo).ioMode (s.overlay r n mo).config.eofSentinel =
      s.input.request s.ioMode s.config.eofSentinel := hport
  unfold execIn
  rw [destination_overlay h, hrequest]
  cases destination s 1 m1 with
  | error e => rfl
  | ok dest =>
    rcases s.input.request s.ioMode s.config.eofSentinel with _ | ⟨_ | _, p⟩
    · rfl
    · exact storeInput_overlay (s := s.setInput p) dest _
    · rfl

theorem execOut_overlay (h : r = id ∨ Mode.readsNoRb m1 = true) :
    execOut m1 (s.overlay r n mo) = mapNext (State.overlay r n mo) (execOut m1 s) := by
  have hrequest : (s.overlay r n mo).outPort.request = s.outPort.request := rfl
  unfold execOut
  rw [source_overlay h, hrequest]
  cases source s 1 m1 with
  | error e => rfl
  | ok a => rcases s.outPort.request with _ | ⟨_ | _, p⟩ <;> rfl

/-- An instruction does the same with other values of `rb`, `loaded_length` and `io_mode`, and carries them along, if it
has no operand through `rb` (or `rb` stays) and its port answers the same. -/
theorem exec_overlay (hrb : r = id ∨ Instr.usesNoRb i = true)
    (hport : ∀ m, i = .inp m →
      s.input.request (mo s.ioMode) s.config.eofSentinel = s.input.request s.ioMode s.config.eofSentinel) :
    exec i (s.overlay r n mo) = mapNext (State.overlay r n mo) (exec i s) := by
  cases i with
  | add | mul | lt | eq => exact (congrArg _ (resultF3_overlay hrb)).trans (finish_overlay _)
  | jit | jif => exact (congrArg _ (resultJump_overlay hrb)).trans (finish_overlay _)
  | inp m =>
    have hposition : r = id ∨ m = .position := hrb.imp_right of_decide_eq_true
    exact execIn_overlay hposition (hport m rfl)
  | out m => exact execOut_overlay hrb
  | arb m =>
    obtain rfl := hrb.resolve_right (fun h => (nomatch h))
    exact (congrArg _ resultArb_overlay).trans (finish_overlay _)
  | halt | unrecognized => rfl

/-- The outcomes an instruction has from a changed state, read off a commuting lemma. -/
theorem outcomes_of_mapNext {x y : Result} {g : State → State} (h : y = mapNext g x) :
    (∀ t, x = .next t → y = .next (g t)) ∧ ∀ f, x = .fault f → y = .fault f := by
  subst h
  constructor <;> rintro _ rfl <;> rfl

/-- Settles O30: no arm but ARB's writes `rb`, and the commuting lemma is applied to another `rb` alone. -/
theorem relativeBaseWrittenByArbOnly : Obligations.RelativeBaseWrittenByArbOnly :=
  ⟨rfl, fun _ _ _ hne h => (exec_frame h).rb hne, fun _ _ r huses =>
    outcomes_of_mapNext (exec_overlay (r := fun _ => r) (n := id) (mo := id) (.inr huses) fun _ _ => rfl)⟩

end Sys2Proof.Machine
end

section
/-! PROOFS. One step (46_dispatch.md): the fetch and its faults, the fetch limit, the host's transactions, where there
is no step, and the fields that only the host writes. -/

namespace Sys2Proof.Machine

variable {s t : State} {i : Instr} {e : FaultInfo} {x : HostTransaction} {rest : List HostTransaction}
  {words : List Word}

/-! ## The steps of a running core -/

theorem step_at_fetch_limit (hr : s.runState = .running) (hl : (s.loadedLength : Int) ≤ s.pc.toInt) :
    step s = .next (s.halt .haltedOutOfBounds) := by
  rw [step_of_running hr]
  rcases coreStep_cases s with ⟨_, h⟩ | ⟨hlt, _⟩ | ⟨hlt, _⟩
  · exact h
  · omega
  · omega

theorem step_of_fetch_error (hr : s.runState = .running) (hl : s.pc.toInt < s.loadedLength)
    (hf : fetchInstruction s = .error e) : step s = .next (faulted s e) := by
  rw [step_of_running hr]
  rcases coreStep_cases s with ⟨hge, _⟩ | ⟨_, e', h, hstep⟩ | ⟨_, j, h, _⟩
  · omega
  · cases hf.symm.trans h
    exact hstep
  · cases hf.symm.trans h

theorem fetchInstruction_of_outOfBounds (h : ¬ InBounds s.config.capacity s.pc) :
    fetchInstruction s = .error (memoryFault .fetch 0 s.pc) := by
  simp only [fetchInstruction, memRead_eq_error_iff.mpr ⟨h, rfl⟩]

theorem fetchInstruction_of_negative_word {w : Word} (h : CellIs s s.pc w) (hnd : s.config.negDecode = .fault)
    (hw : w.toInt < 0) : fetchInstruction s = .error (negativeInstructionWord w) := by
  simp only [fetchInstruction, memRead_eq_ok_iff.mpr h, decode_eq_error_iff.mpr ⟨hnd, hw, rfl⟩]

/-- A negative `pc` passes the fetch limit and faults at the fetch (R172, decision D7). -/
theorem step_of_negative_pc (hr : s.runState = .running) (hpc : s.pc.toInt < 0) :
    step s = .next (faulted s (memoryFault .fetch 0 s.pc)) :=
  step_of_fetch_error hr (by omega) (fetchInstruction_of_outOfBounds fun h => absurd h.1 (by omega))

/-- Settles O36: the fetch is the first access, and the decoder's one refusal the next fault. -/
theorem fetchFaults : Obligations.FetchFaults :=
  fun _ hr => ⟨step_of_negative_pc hr, fun _ hl hcell hnd hw =>
    step_of_fetch_error hr hl (fetchInstruction_of_negative_word hcell hnd hw)⟩

/-- Settles O37: below the fetch limit `pc` is below `CAPACITY`, hence below `2^62`. -/
theorem fetchLimitEndsRun : Obligations.FetchLimitEndsRun := by
  intro s hr
  refine ⟨step_at_fetch_limit hr, step_of_negative_pc hr, fun hinv hlt => ?_⟩
  have hcap := hinv.capacity
  have hloaded := hinv.loadedWithin
  have hlow := BitVec.le_toInt s.pc
  simp only [Config.wf, decide_eq_true_eq] at hcap
  have hpc : s.pc.toInt < 2 ^ 62 := by omega
  refine ⟨hpc, ?_⟩
  rw [BitVec.toInt_add, show (4 : Word).toInt = 4 from rfl, Int.bmod_eq_of_le] <;> omega

/-- Settles O38: below the fetch limit a step is the instruction fetched. -/
theorem stepRunsDecodedInstr : Obligations.StepRunsDecodedInstr :=
  fun _ _ _ hr hl hcell hdecode => step_eq_exec hr hl ((fetchInstruction_of_cell hcell).mpr hdecode)

/-- A core that runs below the fetch limit, `pc` at a cell just written, runs what was written (20_memory.md R52). -/
theorem step_of_stored {v : Word} {m : Memory} (hr : s.runState = .running) (hl : s.pc.toInt < s.loadedLength)
    (hin : InBounds s.config.capacity s.pc) (hm : m.wf = true) (hs : s.mem = m.set (cellOf s.pc) v)
    (hdecode : decode s.config.negDecode v = .ok i) : step s = exec i s := by
  refine step_eq_exec hr hl (fetchInstruction_eq_ok_iff.mpr ⟨hin, ?_⟩)
  rwa [hs, Memory.get_set_self _ v hm]

/-- Settles O39: both instructions complete, at a `pc` whose cell they have written. -/
theorem storeSeenByNextFetch : Obligations.StoreSeenByNextFetch := by
  intro s i j hr hm
  refine ⟨fun m1 m2 m3 a b v hi ha hb hd hin hl hno hv hdecode =>
    ⟨_, exec_f3_completes hi ha hb hd hin hno hv, ?_⟩, ?_⟩
  · exact step_of_stored (m := s.mem) (v := v) hr hl hin hm rfl hdecode
  · rintro m1 v p rfl hd hin hl hp hdecode
    exact ⟨_, exec_inp_completes hd hin hp, step_of_stored (m := s.mem) (v := v) hr hl hin hm rfl hdecode⟩

/-! ## The host's transactions -/

theorem step_of_host (hr : s.runState ≠ .running) (h : s.host = x :: rest) : step s = .next (s.dropHost.serve x) := by
  rw [step_of_not_running hr, hostStep, h]

theorem step_of_no_host (hr : s.runState ≠ .running) (h : s.host = []) : step s = .fault (idleReason s) := by
  rw [step_of_not_running hr, hostStep, h]

theorem dropHost_eq (h : s.host = x :: rest) : s.dropHost = { s with host := rest } := by
  rw [State.dropHost, h, List.tail_cons]

theorem Ended.ne_running (h : Ended s) : s.runState ≠ .running := by
  rcases h with h | h | h <;> simp [h]

theorem Ended.ne_loaded (h : Ended s) : s.runState ≠ .loaded := by
  rcases h with h | h | h <;> simp [h]

theorem acceptLoad_of_fits (hr : s.runState ≠ .running) (hw : words.length ≤ s.config.capacity) :
    s.acceptLoad words = s.load words := if_pos ⟨hr, hw⟩

theorem acceptLoad_of_too_long (hw : s.config.capacity < words.length) : s.acceptLoad words = s :=
  if_neg fun h => absurd h.2 (by omega)

/-- An accepted `Load` is a step (R230). -/
theorem step_of_load_fits (hr : s.runState ≠ .running) (h : s.host = .load words :: rest)
    (hw : words.length ≤ s.config.capacity) : step s = .next (s.dropHost.load words) := by
  rw [step_of_host hr h, State.serve, acceptLoad_of_fits (s := s.dropHost) hr hw]

/-- What a step can be while the core is not running: an accepted `Load`, an accepted `Start`, or a transaction
dropped (R170, R176, R235; log 12). -/
theorem step_next_cases_of_not_running (hr : s.runState ≠ .running) (h : step s = .next t) :
    (∃ words, s.host.head? = some (.load words) ∧ words.length ≤ s.config.capacity ∧ t = s.dropHost.load words) ∨
    (s.runState = .loaded ∧ t = { s.dropHost with runState := .running }) ∨ t = s.dropHost := by
  rw [step_of_not_running hr] at h
  rcases hostStep_cases s with ⟨_, hstop⟩ | ⟨x, rest, hx, hnext⟩
  · cases hstop.symm.trans h
  · obtain rfl := Host.Outcome.next.inj (hnext.symm.trans h)
    cases x with
    | load words =>
      rcases acceptLoad_cases s.dropHost words with ⟨_, hw, hload⟩ | ⟨_, hsame⟩
      · exact .inl ⟨words, by rw [hx, List.head?_cons], hw, hload⟩
      · exact .inr (.inr hsame)
    | start =>
      rcases acceptStart_cases s.dropHost with ⟨hl, hstart⟩ | ⟨_, hsame⟩
      · exact .inr (.inl ⟨hl, hstart⟩)
      · exact .inr (.inr hsame)

/-- Settles O40: a terminal core is neither running nor in `Loaded`, so only a `Load` can change it. -/
theorem terminalStatesAreFinal : Obligations.TerminalStatesAreFinal := by
  intro s hended
  refine ⟨fun hhost t h => ?_, fun t h => ?_⟩
  · cases (step_of_no_host hended.ne_running hhost).symm.trans h
  · rcases step_next_cases_of_not_running hended.ne_running h with ⟨words, hx, hw, rfl⟩ | ⟨hl, _⟩ | rfl
    · exact .inr ⟨words, hx, hw, rfl, rfl⟩
    · exact absurd hl hended.ne_loaded
    · exact .inl rfl

/-- Settles O41: `Start` is accepted in `Loaded` alone. -/
theorem startBeginsRun : Obligations.StartBeginsRun := by
  intro s rest hhost
  refine ⟨fun hl => ?_, fun hended => ?_⟩
  · have haccept : s.dropHost.acceptStart = { s.dropHost with runState := .running } := if_pos hl
    rw [step_of_host (by simp [hl]) hhost, State.serve, haccept, dropHost_eq hhost]
  · have hignore : s.dropHost.acceptStart = s.dropHost := if_neg hended.ne_loaded
    rw [step_of_host hended.ne_running hhost, State.serve, hignore, dropHost_eq hhost]

/-- Settles O42: an image that fits leaves the reset state, one that does not leaves the core as it was. -/
theorem loadResetsCore : Obligations.LoadResetsCore := by
  intro s words rest hr hhost
  refine ⟨fun hw => ⟨_, step_of_load_fits hr hhost hw, rfl, rfl, rfl, rfl, rfl, rfl, rfl, ?_, fun k => ?_⟩,
    fun hw => ?_⟩
  · rw [State.load_host, dropHost_eq hhost]
  · simpa using Memory.get_ofWords 0 k words
  · rw [step_of_host hr hhost, State.serve, acceptLoad_of_too_long (s := s.dropHost) hw, dropHost_eq hhost]

/-- Settles O47: each index is one line of `statusRegister`, behind the check of `run_state`. -/
theorem hostReadBackOutsideRunning : Obligations.HostReadBackOutsideRunning := by
  refine ⟨rfl, fun s => ⟨fun hr => ⟨fun k => if_pos hr, fun a => if_neg fun h => h.1 hr⟩, fun hr => ?_⟩⟩
  have hread (k : Nat) : readStatus s k = statusRegister s k := if_neg hr
  have hnoIndex (k : Nat) (hk : 10 ≤ k) : statusRegister s k = none := by
    obtain ⟨j, rfl⟩ := Nat.exists_eq_add_of_le' hk
    rfl
  have hcell (a : Nat) (ha : a < s.config.capacity) : readCell s a = some (s.mem.get a) := if_pos ⟨hr, ha⟩
  have hnoCell (a : Nat) (ha : s.config.capacity ≤ a) : readCell s a = none := if_neg fun h => absurd h.2 (by omega)
  simp only [hread]
  refine ⟨?_, ?_, ?_, ?_, ?_, ?_, ?_, ?_, ?_, ?_, ?_, ?_, ?_, ?_, ?_, ?_, ?_, ?_, rfl, rfl, rfl, rfl, ?_, ?_, rfl, rfl,
    hnoIndex, fun a => ⟨hcell a, hnoCell a⟩⟩
  all_goals
    intro h
    simp [statusRegister, h, RunState.code, FaultCause.code, FaultKind.code, ioModeCode]

/-- Settles O49: the reset state is written out with these values. -/
theorem resetStateIsSpecs : Obligations.ResetStateIsSpecs := ⟨rfl, rfl, rfl, rfl, rfl, rfl, rfl, rfl, fun _ => rfl⟩

/-! ## Where there is no step -/

theorem exec_ne_refused (y : Refusal) : exec i s ≠ .refused y := by
  cases i with
  | inp m => exact execIn_ne_refused y
  | out m => exact execOut_ne_refused y
  | add | mul | lt | eq | jit | jif | arb => exact finish_ne_refused _ y
  | halt | unrecognized => exact fun h => (nomatch h)

/-- Only IN and OUT stop, and only while their port has not answered (42_io.md R125). -/
theorem exec_fault_cases {f : Fault} (h : exec i s = .fault f) :
    ((∃ m, i = .inp m) ∧ s.input.items = [] ∧ s.input.ended = false ∧ f = .inputWait) ∨
    ((∃ m, i = .out m) ∧ s.outPort.answers = [] ∧ s.outPort.takesAll = false ∧ f = .outputWait) := by
  cases i with
  | inp m =>
    obtain ⟨_, hp, rfl⟩ := execIn_eq_fault_iff.mp h
    obtain ⟨hitems, hended⟩ := InputPort.request_eq_none_iff.mp hp
    exact .inl ⟨⟨m, rfl⟩, hitems, hended, rfl⟩
  | out m =>
    obtain ⟨_, hp, rfl⟩ := execOut_eq_fault_iff.mp h
    obtain ⟨hanswers, hall⟩ := OutputPort.request_eq_none_iff.mp hp
    exact .inr ⟨⟨m, rfl⟩, hanswers, hall, rfl⟩
  | add | mul | lt | eq | jit | jif | arb => exact absurd h (finish_ne_fault _ f)
  | halt | unrecognized => cases h

/-- A core that is not running is in `Loaded` or in a terminal state. -/
theorem loaded_or_ended_of_not_running (hr : s.runState ≠ .running) : s.runState = .loaded ∨ Ended s := by
  unfold Ended
  cases hs : s.runState <;> simp_all

theorem idleReason_of_ended (h : Ended s) : idleReason s = .runEnded := if_neg h.ne_loaded

/-- Settles O45: a running core stops inside IN or OUT alone, any other core when the host has nothing pending. -/
theorem stepStopsOnlyWhereSpecGivesNoStep : Obligations.StepStopsOnlyWhereSpecGivesNoStep := by
  intro s
  by_cases hr : s.runState = .running
  · rw [step_of_running hr]
    rcases coreStep_cases s with ⟨_, hstep⟩ | ⟨_, e, _, hstep⟩ | ⟨hl, i, hfetch, hstep⟩
    · exact ⟨fun y h => (nomatch hstep.symm.trans h), fun f h => (nomatch hstep.symm.trans h)⟩
    · exact ⟨fun y h => (nomatch hstep.symm.trans h), fun f h => (nomatch hstep.symm.trans h)⟩
    · refine ⟨fun y h => exec_ne_refused y (hstep.symm.trans h), fun f h => .inl ⟨hr, hl, ?_⟩⟩
      rcases exec_fault_cases (hstep.symm.trans h) with ⟨⟨m, rfl⟩, hwait⟩ | ⟨⟨m, rfl⟩, hwait⟩
      · exact .inl ⟨⟨m, hfetch⟩, hwait⟩
      · exact .inr ⟨⟨m, hfetch⟩, hwait⟩
  · rw [step_of_not_running hr]
    rcases hostStep_cases s with ⟨hhost, hstep⟩ | ⟨x, rest, _, hstep⟩
    · refine ⟨fun y h => (nomatch hstep.symm.trans h), fun f h => .inr ?_⟩
      obtain rfl := Host.Outcome.fault.inj (hstep.symm.trans h)
      rcases loaded_or_ended_of_not_running hr with hl | hended
      · exact .inl ⟨hl, hhost, if_pos hl⟩
      · exact .inr ⟨hended, hhost, idleReason_of_ended hended⟩
    · exact ⟨fun y h => (nomatch hstep.symm.trans h), fun f h => (nomatch hstep.symm.trans h)⟩

/-! ## The fields that only the host, or nobody, writes -/

/-- What a step of a running core can be (R174). -/
theorem step_next_cases_of_running (hr : s.runState = .running) (h : step s = .next t) :
    ((s.loadedLength : Int) ≤ s.pc.toInt ∧ t = s.halt .haltedOutOfBounds) ∨
    (∃ e, fetchInstruction s = .error e ∧ t = s.enterFault e) ∨
    ∃ i, fetchInstruction s = .ok i ∧ exec i s = .next t := by
  rw [step_of_running hr] at h
  rcases coreStep_cases s with ⟨hl, hstep⟩ | ⟨_, e, hfetch, hstep⟩ | ⟨_, i, hfetch, hstep⟩
  · exact .inl ⟨hl, Host.Outcome.next.inj (h.symm.trans hstep)⟩
  · exact .inr (.inl ⟨e, hfetch, Host.Outcome.next.inj (h.symm.trans hstep)⟩)
  · exact .inr (.inr ⟨i, hfetch, hstep.symm.trans h⟩)

theorem coreStep_keeps_static (hr : s.runState = .running) (h : step s = .next t) :
    t.config = s.config ∧ t.ioMode = s.ioMode ∧ t.loadedLength = s.loadedLength := by
  rcases step_next_cases_of_running hr h with ⟨_, rfl⟩ | ⟨e, _, rfl⟩ | ⟨i, _, hexec⟩
  · exact ⟨rfl, rfl, rfl⟩
  · exact ⟨rfl, rfl, rfl⟩
  · have hframe := exec_frame hexec
    exact ⟨hframe.config, hframe.ioMode, hframe.loadedLength⟩

theorem step_keeps_parameters (h : step s = .next t) : t.ioMode = s.ioMode ∧ t.config = s.config := by
  by_cases hr : s.runState = .running
  · obtain ⟨hconfig, hmode, _⟩ := coreStep_keeps_static hr h
    exact ⟨hmode, hconfig⟩
  · rcases step_next_cases_of_not_running hr h with ⟨words, _, _, rfl⟩ | ⟨_, rfl⟩ | rfl <;> exact ⟨rfl, rfl⟩

theorem step_loadedLength_cases (h : step s = .next t) :
    t.loadedLength = s.loadedLength ∨
    ∃ words, s.runState ≠ .running ∧ s.host.head? = some (.load words) ∧ words.length ≤ s.config.capacity := by
  by_cases hr : s.runState = .running
  · exact .inl (coreStep_keeps_static hr h).2.2
  · rcases step_next_cases_of_not_running hr h with ⟨words, hx, hw, _⟩ | ⟨_, rfl⟩ | rfl
    · exact .inr ⟨words, hr, hx, hw⟩
    · exact .inl rfl
    · exact .inl rfl

/-- Settles O43: a load is the one step that writes `loaded_length`, and `exec` commutes with another value of it. -/
theorem loadedLengthWrittenByLoadOnly : Obligations.LoadedLengthWrittenByLoadOnly := by
  refine ⟨imageWords_length, fun s t words rest hr hhost hw h => ?_, fun s t => step_loadedLength_cases,
    fun s hr => if_neg hr, fun i s n => ?_⟩
  · obtain rfl := Host.Outcome.next.inj ((step_of_load_fits hr hhost hw).symm.trans h)
    exact ⟨rfl, hw⟩
  · exact outcomes_of_mapNext (exec_overlay (r := id) (n := fun _ => n) (mo := id) (.inl rfl) fun _ _ => rfl)

/-- R122, log 10: an item has one answer in both modes, and so has an open stream with no item. -/
theorem InputPort.request_mode_irrelevant {p : InputPort} {eof : Word} (mode mode' : IoMode)
    (h : p.items ≠ [] ∨ p.ended = false) : p.request mode eof = p.request mode' eof := by
  cases hitems : p.items with
  | cons item rest => rw [InputPort.request_of_cons hitems, InputPort.request_of_cons hitems]
  | nil =>
    have hopen : p.ended = false := h.resolve_left fun hne => hne hitems
    rw [InputPort.request_eq_none_iff.mpr ⟨hitems, hopen⟩, InputPort.request_eq_none_iff.mpr ⟨hitems, hopen⟩]

/-- Settles O44: no step writes `io_mode` or a parameter, and `exec` commutes with another mode wherever the input port
answers the same. -/
theorem ioModeChangesNoSemantics : Obligations.IoModeChangesNoSemantics := by
  refine ⟨fun s t => step_keeps_parameters, fun i s mode hport => ?_⟩
  refine outcomes_of_mapNext (exec_overlay (r := id) (n := id) (mo := fun _ => mode) (.inl rfl) fun m hi => ?_)
  exact InputPort.request_mode_irrelevant mode s.ioMode (hport.resolve_left fun hne => hne m hi)

end Sys2Proof.Machine
end

section
/-! PROOFS. The invariant of the machine: it holds at reset and every step keeps it. -/

namespace Sys2Proof.Machine

variable {s t : State} {i : Instr} {m m1 m2 m3 : Mode} {k : Fin 4} {e : FaultInfo} {c : Config}

/-! ## Legal fault records (60_exceptions.md R201-R204) -/

/-- The record of `e` is one the spec allows, at whatever `pc`. -/
def FaultInfo.Legal (c : Config) (e : FaultInfo) : Prop :=
  ∀ pc, FaultStatus.legal c ⟨e.cause, e.kind, e.operand, e.value, pc⟩

theorem memoryFault_legal {kind : FaultKind} {a : Word} (hout : ¬ InBounds c.capacity a)
    (hplace : kind = .fetch ∧ k = 0 ∨ kind = .operandFetch ∧ k ≠ 0 ∨ kind = .read ∧ (k = 1 ∨ k = 2) ∨
      kind = .write ∧ (k = 1 ∨ k = 3)) : (memoryFault kind k a).Legal c :=
  fun _ => ⟨hout, hplace⟩

theorem operandFaults_legal (hk : k ≠ 0) (h : OperandFaults s k e) : e.Legal s.config := by
  obtain ⟨hout, rfl⟩ := h
  exact memoryFault_legal hout (.inr (.inl ⟨rfl, hk⟩))

/-- The unknown mode digits of an instruction word are 3 to 9, so the record holds such a digit. -/
theorem unknownMode_legal {d : Nat} (hk : k = 1 ∨ k = 2) (hm : (Mode.unknown d).wf = true) :
    (unknownMode k d).Legal c := by
  simp only [Mode.wf, decide_eq_true_eq] at hm
  have hd : (BitVec.ofNat 64 d).toNat = d := by
    rw [BitVec.toNat_ofNat]
    omega
  exact fun _ => ⟨rfl, hk, by rw [unknownMode, hd]; exact hm.1, by rw [unknownMode, hd]; exact hm.2⟩

theorem sourceFaults_legal (hk : k = 1 ∨ k = 2) (hm : m.wf = true) (h : SourceFaults s k m e) : e.Legal s.config := by
  rcases h with hword | ⟨raw, _, h⟩
  · exact operandFaults_legal (by rcases hk with rfl | rfl <;> decide) hword
  · cases m with
    | position | relative =>
      obtain ⟨hout, rfl⟩ := h
      exact memoryFault_legal hout (.inr (.inr (.inl ⟨rfl, hk⟩)))
    | immediate => exact h.elim
    | unknown d =>
      obtain rfl : e = unknownMode k d := h
      exact unknownMode_legal hk hm

/-- Two read operands, resolved in order, fault by legal records. -/
theorem twoSourceFaults_legal (h1 : m1.wf = true) (h2 : m2.wf = true)
    (h : SourceFaults s 1 m1 e ∨ ∃ a, Reads s 1 m1 a ∧ SourceFaults s 2 m2 e) : e.Legal s.config := by
  rcases h with h | ⟨_, _, h⟩
  · exact sourceFaults_legal (.inl rfl) h1 h
  · exact sourceFaults_legal (.inr rfl) h2 h

theorem overflow_legal {a b : Word} (h : Overflows s i a b) : arithmeticOverflow.Legal s.config :=
  fun _ => ⟨h.1, rfl, rfl, rfl⟩

theorem ioFault_legal {kind : FaultKind} (h : kind = .input ∨ kind = .output) : (ioFault kind).Legal c :=
  fun _ => ⟨h, rfl, rfl⟩

/-- A fetch faults by a legal record. -/
theorem fetchInstruction_error_legal (h : fetchInstruction s = .error e) : e.Legal s.config := by
  rcases fetchInstruction_error_cases h with ⟨hout, rfl⟩ | ⟨w, _, hnd, hw, rfl⟩
  · exact memoryFault_legal hout (.inl ⟨rfl, rfl⟩)
  · exact fun _ => ⟨hnd, rfl, rfl, hw⟩

/-! ## The record an instruction leaves -/

/-- A core that was running and is in `HaltedFault` has recorded a legal fault. -/
def LegalIfFaulted (s t : State) : Prop := t.runState = .haltedFault → t.fault.legal s.config

theorem legalIfFaulted_of_enterFault {u : State} (h : e.Legal s.config) : LegalIfFaulted s (u.enterFault e) :=
  fun _ => h u.pc

theorem legalIfFaulted_of_runState (hr : t.runState ≠ .haltedFault) : LegalIfFaulted s t := fun h => absurd h hr

theorem finish_legal {r : Except FaultInfo State} (herror : ∀ e, r = .error e → e.Legal s.config)
    (hok : ∀ t, r = .ok t → t.runState ≠ .haltedFault) (h : finish s r = .next t) : LegalIfFaulted s t := by
  rcases finish_eq_next_iff.mp h with hr | ⟨e, hr, rfl⟩
  · exact legalIfFaulted_of_runState (hok t hr)
  · exact legalIfFaulted_of_enterFault (herror e hr)

section
variable (hr : s.runState = .running)
include hr

theorem exec_f3_legal (hi : IsF3 i m1 m2 m3) (h1 : m1.wf = true) (h2 : m2.wf = true) (h : exec i s = .next t) :
    LegalIfFaulted s t := by
  obtain ⟨f, hexec, hf⟩ := exec_of_isF3 (s := s) hi
  refine finish_legal (fun e he => ?_) (fun u hu => ?_) (hexec.symm.trans h)
  · rcases resultF3_eq_error_iff.mp he with h | h | ⟨a, b, _, _, h | ⟨dest, _, hfab | ⟨v, _, hout, rfl⟩⟩⟩
    · exact twoSourceFaults_legal h1 h2 (.inl h)
    · exact twoSourceFaults_legal h1 h2 (.inr h)
    · exact operandFaults_legal (by decide) h
    · rcases hf a b with ⟨hover, hoverflow⟩ | ⟨_, v, _, hok⟩
      · cases hoverflow.symm.trans hfab
        exact overflow_legal hover
      · cases hok.symm.trans hfab
    · exact memoryFault_legal hout (.inr (.inr (.inr ⟨rfl, .inr rfl⟩)))
  · obtain ⟨_, _, _, _, _, _, _, _, _, rfl⟩ := resultF3_eq_ok_iff.mp hu
    simp [hr]

theorem resultJump_legal {taken : Word → Bool} (h1 : m1.wf = true) (h2 : m2.wf = true)
    (h : finish s (resultJump taken m1 m2 s) = .next t) : LegalIfFaulted s t := by
  refine finish_legal (fun e he => twoSourceFaults_legal h1 h2 (resultJump_eq_error_iff.mp he)) (fun u hu => ?_) h
  obtain ⟨a, b, _, _, rfl⟩ := resultJump_eq_ok_iff.mp hu
  cases taken a <;> simp [hr]

theorem execArb_legal (h1 : m1.wf = true) (h : execArb m1 s = .next t) : LegalIfFaulted s t := by
  refine finish_legal (fun e he => sourceFaults_legal (.inl rfl) h1 (resultArb_eq_error_iff.mp he)) (fun u hu => ?_) h
  obtain ⟨a, _, rfl⟩ := resultArb_eq_ok_iff.mp hu
  simp [hr]

theorem execIn_legal (h : execIn m1 s = .next t) : LegalIfFaulted s t := by
  rcases execIn_next_cases h with ⟨e, he, rfl⟩ | ⟨dest, _, ⟨p, _, rfl⟩ | ⟨v, p, _, _, rfl⟩ | ⟨v, p, _, hout, rfl⟩⟩
  · exact legalIfFaulted_of_enterFault (operandFaults_legal (by decide) he)
  · exact legalIfFaulted_of_enterFault (ioFault_legal (.inl rfl))
  · exact legalIfFaulted_of_runState (by simp [hr])
  · exact legalIfFaulted_of_enterFault (memoryFault_legal hout (.inr (.inr (.inr ⟨rfl, .inl rfl⟩))))

theorem execOut_legal (h1 : m1.wf = true) (h : execOut m1 s = .next t) : LegalIfFaulted s t := by
  rcases execOut_next_cases h with ⟨e, he, rfl⟩ | ⟨a, _, ⟨p, _, rfl⟩ | ⟨p, _, rfl⟩⟩
  · exact legalIfFaulted_of_enterFault (sourceFaults_legal (.inl rfl) h1 he)
  · exact legalIfFaulted_of_enterFault (ioFault_legal (.inr rfl))
  · exact legalIfFaulted_of_runState (by simp [hr])

/-- A well-formed instruction faults by a legal record alone. -/
theorem exec_legal (hwf : i.WellFormed) (h : exec i s = .next t) : LegalIfFaulted s t := by
  cases i with
  | add m1 m2 m3 | mul m1 m2 m3 | lt m1 m2 m3 | eq m1 m2 m3 =>
    simp only [Instr.WellFormed, Instr.wf, Bool.and_eq_true] at hwf
    obtain ⟨⟨h1, h2⟩, _⟩ := hwf
    exact exec_f3_legal (m3 := m3) hr (by simp [IsF3]) h1 h2 h
  | jit m1 m2 | jif m1 m2 =>
    simp only [Instr.WellFormed, Instr.wf, Bool.and_eq_true] at hwf
    exact resultJump_legal hr hwf.1 hwf.2 h
  | inp m => exact execIn_legal hr h
  | out m => exact execOut_legal hr hwf h
  | arb m => exact execArb_legal hr hwf h
  | halt | unrecognized =>
    cases h
    exact legalIfFaulted_of_runState (by simp [hr])

end

/-! ## Every step keeps the invariant -/

/-- Settles O50: the reset state is written out. -/
theorem invHoldsAtReset : Obligations.InvHoldsAtReset where
  capacity := rfl
  memCanonical := rfl
  memWithin := rfl
  loadedWithin := Nat.zero_le _
  streamFits := rfl
  faultClear _ := rfl
  faultLegal h := nomatch h
  faultPc h := nomatch h
  outOfBounds h := nomatch h
  haltWord h := nomatch h
  loadedReset _ := ⟨rfl, rfl⟩

theorem ExecFrame.mem_wf (h : ExecFrame i s t) (hm : s.mem.wf = true) : t.mem.wf = true := by
  rcases h.mem with hsame | ⟨dest, v, _, _, hset⟩
  · rwa [hsame]
  · rw [hset]
    exact Memory.wf_set _ v hm

theorem ExecFrame.mem_within (h : ExecFrame i s t) (hm : s.mem.within s.config.capacity = true) :
    t.mem.within t.config.capacity = true := by
  rw [h.config]
  rcases h.mem with hsame | ⟨dest, v, _, hin, hset⟩
  · rwa [hsame]
  · rw [hset]
    exact Memory.within_set v hin.cellOf_lt hm

theorem ExecFrame.stream_fits (h : ExecFrame i s t) (hs : s.input.items.all (InputItem.fits s.ioMode) = true) :
    t.input.items.all (InputItem.fits t.ioMode) = true := by
  rw [h.ioMode]
  simp only [List.all_eq_true] at hs ⊢
  exact fun item hitem => hs item (h.input.1.subset hitem)

/-- Fault entry of a running core with a legal record keeps the invariant (R205). -/
theorem State.Inv.enterFault (hinv : s.Inv) (hlegal : e.Legal s.config) : (s.enterFault e).Inv :=
  { hinv with
    faultClear h := absurd rfl h
    faultLegal _ := hlegal s.pc
    faultPc _ := rfl
    outOfBounds h := nomatch h
    haltWord h := nomatch h
    loadedReset h := nomatch h }

/-- The fetch limit ends the run at or above `loaded_length` (46_dispatch.md R171). -/
theorem State.Inv.halt_outOfBounds (hinv : s.Inv) (hr : s.runState = .running)
    (hl : (s.loadedLength : Int) ≤ s.pc.toInt) : (s.halt .haltedOutOfBounds).Inv :=
  { hinv with
    faultClear _ := hinv.faultClear (by simp [hr])
    faultLegal h := nomatch h
    faultPc h := nomatch h
    outOfBounds _ := hl
    haltWord h := nomatch h
    loadedReset h := nomatch h }

/-- An instruction fetched by a running core keeps the invariant: the data by its frame, the status by the three ways
its frame can end. -/
theorem State.Inv.exec (hinv : s.Inv) (hr : s.runState = .running) (hfetch : fetchInstruction s = .ok i)
    (h : exec i s = .next t) : t.Inv := by
  have hframe := exec_frame h
  have hclear : s.fault = FaultStatus.clear := hinv.faultClear (by simp [hr])
  have hwf : i.WellFormed := decodedInstrIsWellFormed _ _ _ (fetchInstruction_eq_ok_iff.mp hfetch).2
  have hlegal : t.runState = .haltedFault → t.fault.legal t.config := hframe.config ▸ exec_legal hr hwf h
  have hcapacity : t.config.wf = true := hframe.config ▸ hinv.capacity
  have hloaded : t.loadedLength ≤ t.config.capacity := by
    rw [hframe.loadedLength, hframe.config]
    exact hinv.loadedWithin
  have hmem := hframe.mem_wf hinv.memCanonical
  have hwithin := hframe.mem_within hinv.memWithin
  have hfits := hframe.stream_fits hinv.streamFits
  rcases hframe.status with ⟨hrun, hfault⟩ | ⟨rfl, rfl⟩ | htaken
  · have hrunning : t.runState = .running := hrun.trans hr
    exact ⟨hcapacity, hmem, hwithin, hloaded, hfits, fun _ => hfault.trans hclear, hlegal, by simp [hrunning],
      by simp [hrunning], by simp [hrunning], by simp [hrunning]⟩
  · exact ⟨hcapacity, hmem, hwithin, hloaded, hfits, fun _ => hclear, hlegal, by simp, by simp, fun _ => hfetch,
      by simp⟩
  · have hhalted := htaken.runState
    exact ⟨hcapacity, hmem, hwithin, hloaded, hfits, fun hne => absurd hhalted hne, hlegal,
      fun _ => htaken.faultPc.trans htaken.pc.symm, by simp [hhalted], by simp [hhalted], by simp [hhalted]⟩

/-- The pending transactions are no part of the invariant. -/
theorem State.Inv.dropHost (hinv : s.Inv) : s.dropHost.Inv := { hinv with }

/-- An accepted `Load` leaves the invariant of the reset state (70_reset_and_hazards.md R230). -/
theorem State.Inv.load {words : List Word} (hinv : s.Inv) (hw : words.length ≤ s.config.capacity) :
    (s.load words).Inv :=
  { hinv with
    memCanonical := Memory.wf_ofWords words
    memWithin := Memory.within_ofWords 0 _ words (by simpa using hw)
    loadedWithin := hw
    faultClear _ := rfl
    faultLegal h := nomatch h
    faultPc h := nomatch h
    outOfBounds h := nomatch h
    haltWord h := nomatch h
    loadedReset _ := ⟨rfl, rfl⟩ }

/-- An accepted `Start` only leaves `Loaded` (46_dispatch.md R170). -/
theorem State.Inv.start (hinv : s.Inv) (hl : s.runState = .loaded) : State.Inv { s with runState := .running } :=
  { hinv with
    faultClear _ := hinv.faultClear (by simp [hl])
    faultLegal h := nomatch h
    faultPc h := nomatch h
    outOfBounds h := nomatch h
    haltWord h := nomatch h
    loadedReset h := nomatch h }

/-- Settles O51: each of the things a step can be keeps the invariant. -/
theorem stepKeepsInv : Obligations.StepKeepsInv := by
  intro s t hinv h
  by_cases hr : s.runState = .running
  · rcases step_next_cases_of_running hr h with ⟨hl, rfl⟩ | ⟨e, hfetch, rfl⟩ | ⟨i, hfetch, hexec⟩
    · exact hinv.halt_outOfBounds hr hl
    · exact hinv.enterFault (fetchInstruction_error_legal hfetch)
    · exact hinv.exec hr hfetch hexec
  · rcases step_next_cases_of_not_running hr h with ⟨words, _, hw, rfl⟩ | ⟨hl, rfl⟩ | rfl
    · exact hinv.dropHost.load hw
    · exact hinv.dropHost.start hl
    · exact hinv.dropHost

end Sys2Proof.Machine
end

section
/-! PROOFS. Runs under fuel (46_dispatch.md R177), and the cells that no step writes (20_memory.md R41). -/

namespace Sys2Proof.Machine

variable {s t : State} {n j k : Nat} {i : Instr}

/-! ## How a run comes out -/

/-- The fuel a run has left is the fuel of the run from where it stands. -/
theorem runUnderFuel_of_runTo (h : RunTo k s t) : runUnderFuel (k + j) s = runUnderFuel j t := by
  induction h with
  | refl s => rw [Nat.zero_add]
  | head hended hstep _ ih => rw [Nat.add_right_comm, runUnderFuel_succ_of_next hended hstep, ih]

/-- A run under fuel stands in the end in a terminal state, or where the fuel is spent, or where there is no step. -/
theorem runUnderFuel_reaches (n : Nat) (s : State) :
    ∃ k t, k ≤ n ∧ RunTo k s t ∧
      ((Ended t ∧ runUnderFuel n s = .ended t.leaves) ∨
       (¬ Ended t ∧ (k = n ∨ ∀ u, step t ≠ .next u) ∧ runUnderFuel n s = .notEnded t)) := by
  induction n generalizing s with
  | zero =>
    by_cases hended : Ended s
    · exact ⟨0, s, le_rfl, .refl s, .inl ⟨hended, runUnderFuel_of_ended hended⟩⟩
    · exact ⟨0, s, le_rfl, .refl s, .inr ⟨hended, .inl rfl, runUnderFuel_zero hended⟩⟩
  | succ n ih =>
    by_cases hended : Ended s
    · exact ⟨0, s, Nat.zero_le _, .refl s, .inl ⟨hended, runUnderFuel_of_ended hended⟩⟩
    · by_cases hno : ∀ u, step s ≠ .next u
      · exact ⟨0, s, Nat.zero_le _, .refl s, .inr ⟨hended, .inr hno, runUnderFuel_of_no_step hended hno⟩⟩
      · obtain ⟨u, hu⟩ := not_forall_not.mp hno
        obtain ⟨k, t, hk, hrun, hout⟩ := ih u
        rw [← runUnderFuel_succ_of_next (n := n) hended hu] at hout
        refine ⟨k + 1, t, Nat.succ_le_succ hk, .head hended hu hrun, ?_⟩
        rwa [Nat.add_right_cancel_iff]

/-- The step of a JIT that is taken to itself leads back to where it was. -/
theorem step_of_self_jump {m1 m2 : Mode} {a : Word} (hr : s.runState = .running) (hl : s.pc.toInt < s.loadedLength)
    (hfetch : fetchInstruction s = .ok (.jit m1 m2)) (ha : Reads s 1 m1 a) (hne : a.toInt ≠ 0)
    (hb : Reads s 2 m2 s.pc) : step s = .next s := by
  rw [step_eq_exec hr hl hfetch]
  exact (jitJumpsWhenNonzero s m1 m2 a s.pc ha hb).1 hne

/-- A core that steps to itself is not ended under any fuel. -/
theorem runUnderFuel_of_loop (hended : ¬ Ended s) (hstep : step s = .next s) : runUnderFuel n s = .notEnded s := by
  induction n with
  | zero => exact runUnderFuel_zero hended
  | succ n ih => rw [runUnderFuel_succ_of_next hended hstep, ih]

/-- Settles O52: one induction says where a run stands in the end, and a run has one outcome. -/
theorem runEndsOnlyInTerminalState : Obligations.RunEndsOnlyInTerminalState := by
  intro n s
  obtain ⟨k, t, hk, hrun, hout⟩ := runUnderFuel_reaches n s
  refine ⟨fun r => ⟨fun h => ?_, ?_⟩, fun u => ⟨fun h => ?_, ?_⟩, fun m1 m2 a hr hl hfetch ha hne hb =>
    runUnderFuel_of_loop (not_ended_of_running hr) (step_of_self_jump hr hl hfetch ha hne hb)⟩
  · rcases hout with ⟨hended, hleft⟩ | ⟨_, _, hnot⟩
    · exact ⟨k, t, hk, hrun, hended, (RunOutcome.ended.inj (hleft.symm.trans h)).symm⟩
    · cases hnot.symm.trans h
  · rintro ⟨k, t, hk, hrun, hended, rfl⟩
    obtain ⟨j, rfl⟩ := Nat.exists_eq_add_of_le hk
    exact (runUnderFuel_of_runTo hrun).trans (runUnderFuel_of_ended hended)
  · rcases hout with ⟨_, hleft⟩ | ⟨hended, hstands, hnot⟩
    · cases hleft.symm.trans h
    · obtain rfl := RunOutcome.notEnded.inj (hnot.symm.trans h)
      exact ⟨hended, k, hk, hrun, hstands⟩
  · rintro ⟨hended, k, hk, hrun, hstands⟩
    obtain ⟨j, rfl⟩ := Nat.exists_eq_add_of_le hk
    rw [runUnderFuel_of_runTo hrun]
    rcases hstands with hspent | hno
    · obtain rfl : j = 0 := by omega
      exact runUnderFuel_zero hended
    · exact runUnderFuel_of_no_step hended hno

/-! ## Cells that are not written -/

/-- A step that does not write cell `k` leaves its word: the destination of the instruction names another cell, or the
host loads nothing that fits. -/
theorem step_spares_cell (hspared : StepSparesCell s k) (h : step s = .next t) : t.mem.get k = s.mem.get k := by
  rcases hspared with ⟨hr, hdest⟩ | ⟨hr, hload⟩
  · rcases step_next_cases_of_running hr h with ⟨_, rfl⟩ | ⟨e, _, rfl⟩ | ⟨i, hfetch, hexec⟩
    · rfl
    · rfl
    · exact (exec_frame hexec).get_eq fun dest => hdest i dest hfetch
  · rcases step_next_cases_of_not_running hr h with ⟨words, hx, hw, _⟩ | ⟨_, rfl⟩ | rfl
    · have hlong := hload words hx
      omega
    · rfl
    · rfl

/-- Settles O53: the loaded word of a cell is carried through every step that spares it. -/
theorem unwrittenCellReadsResetWord : Obligations.UnwrittenCellReadsResetWord := by
  refine ⟨fun s t k => step_spares_cell, fun s t words k h => ?_⟩
  have hloaded : (s.load words).mem.get k = words.getD k 0 := by simpa using Memory.get_ofWords 0 k words
  have hcell : t.mem.get k = words.getD k 0 := (h.get_eq fun _ _ => step_spares_cell).trans hloaded
  refine ⟨hcell, ?_⟩
  rintro kind i a hnonneg hlt rfl
  exact memRead_eq_ok_iff.mpr ⟨⟨hnonneg, hlt⟩, hcell⟩

end Sys2Proof.Machine
end
